-- ==== Sys2Proof/Word.lean ====
section
/-! DEFINITION. The word of the block's one bus: 32 bits (spec 20_memory.md R51, 30_encoding.md R70).
W-bit register values are natural numbers (00_scope.md R10), so no wider bit vector is needed. -/

namespace Sys2Proof

/-- The access unit of the register window and the length of a command word: 32 bits, bit 0 the least
significant (spec 20_memory.md R51, R54; 30_encoding.md R70). -/
abbrev Word := BitVec 32

end Sys2Proof
end

