-- ==== Sys2Proof/Config.lean ====
section
/-! DEFINITION. What an implementation fixes: the operand width W (spec 00_scope.md R7, 92_eei_decisions.md D3).
W is a parameter of the spec. The model carries it in the state as the limb count L = W / 32 (field `limbs`), so
that every definition and every statement is for every W; only `State.reset` needs one concrete machine, and
`Config.resetLimbs` names it (assumption log 1). The window's base address BASE is the platform's and no rule uses
it (20_memory.md R50, D17), so it is no field of the model. -/

namespace Sys2Proof

/-- The largest limb count, W = 8192 (spec 00_scope.md R7; it fills the bank stride of 20_memory.md R52). -/
def Config.maxLimbs : Nat := 256

/-- DESIGN CHOICE (assumption log 1, unsafe): the limb count of the machine `State.reset` describes, L = 1, W = 32,
the width of every vector of spec 95_test_vectors.md that does not say otherwise. -/
def Config.resetLimbs : Nat := 1

end Sys2Proof
end

