-- ==== Sys2Proof/Syntax.lean ====
section
/-! DEFINITION. The block's instructions are its five commands (spec 00_scope.md R2, 30_encoding.md R71). No command
has an operand field: operands and results are fixed registers (30_encoding.md R70, R74, R75). -/

namespace Sys2Proof

/-- The five commands, one constructor per row of spec/opcode_table.json (spec 30_encoding.md R71). -/
inductive Instr where
  | modmul     -- `MODMUL`, spec 40_modmul.md R90
  | modexp     -- `MODEXP`, spec 41_modexp.md R100
  | egcd       -- `EGCD`, spec 42_egcd.md R110
  | modinv     -- `MODINV`, spec 43_modinv.md R120
  | primetest  -- `PRIMETEST`, spec 44_primetest.md R130
deriving DecidableEq, Repr

/-- A command is written as its mnemonic alone, upper case, with no operands (spec 30_encoding.md R77). -/
def Instr.mnemonic : Instr → String
  | .modmul => "MODMUL"
  | .modexp => "MODEXP"
  | .egcd => "EGCD"
  | .modinv => "MODINV"
  | .primetest => "PRIMETEST"

/-- The two fields of format C, the one command format (spec 30_encoding.md R70). -/
structure FormatC where
  /-- bits [7:0], selects the command -/
  opcode : BitVec 8
  /-- bits [31:8], reserved, must be 0 -/
  rsvd : BitVec 24
deriving DecidableEq, Repr

end Sys2Proof
end

