-- ==== Sys2Proof/WellFormed.lean ====
section
/-! DEFINITION. The checks on syntax and parameters. A command has no operand, so every `Instr` is well formed; what
can be ill formed is a pair of command-word fields (spec 30_encoding.md R72, R73) and a limb count
(00_scope.md R7). Each check is a Bool. -/

namespace Sys2Proof

/-- Reserved bits are not ignored: they must be 0 (spec 30_encoding.md R72). -/
def FormatC.rsvdClear (f : FormatC) : Bool := f.rsvd == 0

/-- Opcodes 0x01 to 0x05 are assigned; 0x00 and 0x06 to 0xFF are illegal (spec 30_encoding.md R71, R73). -/
def FormatC.opcodeAssigned (f : FormatC) : Bool := 0x01 ≤ f.opcode.toNat && f.opcode.toNat ≤ 0x05

/-- The fields are those of a legal command word. -/
def FormatC.wf (f : FormatC) : Bool := f.rsvdClear && f.opcodeAssigned

/-- No command has an operand field (spec 30_encoding.md R70, R74), so no constructor has anything to check. -/
def Instr.wf : Instr → Bool
  | .modmul => true
  | .modexp => true
  | .egcd => true
  | .modinv => true
  | .primetest => true

/-- W is a multiple of 32 with 32 ≤ W ≤ 8192, that is 1 ≤ L ≤ 256 (spec 00_scope.md R7). -/
def Config.limbsWf (limbs : Nat) : Bool := 1 ≤ limbs && limbs ≤ Config.maxLimbs

end Sys2Proof
end

