-- ==== Sys2Proof/Decode.lean ====
section
/-! DEFINITION. Decode, a total function of the 32-bit command word that reads nothing else (spec 30_encoding.md
R76, R80), and the encoder written from the same table (R70, R71). -/

namespace Sys2Proof

/-- Why a command word is illegal. Both reasons end in `raise Err(IllegalCommand)` (spec 30_encoding.md R72, R73). -/
inductive IllegalWord where
  /-- bits [31:8] are not all 0 (R72) -/
  | reservedBits
  /-- the opcode is 0x00 or 0x06 to 0xFF (R73) -/
  | reservedOpcode
deriving DecidableEq, Repr

/-- What decode answers: a command, or the name of the reason the word is illegal. -/
inductive Decoded where
  | command (i : Instr)
  | illegal (why : IllegalWord)
deriving DecidableEq, Repr

/-- `opcode` is bits [7:0] and `rsvd` bits [31:8] (spec 30_encoding.md R70). -/
def splitWord (w : Word) : FormatC :=
  { opcode := w.extractLsb' 0 8, rsvd := w.extractLsb' 8 24 }

/-- The case analysis of spec 30_encoding.md R80: reserved bits first, then the opcode. -/
def decodeFields (f : FormatC) : Decoded :=
  if f.rsvdClear then
    match f.opcode.toNat with
    | 0x01 => .command .modmul
    | 0x02 => .command .modexp
    | 0x03 => .command .egcd
    | 0x04 => .command .modinv
    | 0x05 => .command .primetest
    | _ => .illegal .reservedOpcode
  else .illegal .reservedBits

/-- `decode(w)` of spec 30_encoding.md R80. -/
def decode (w : Word) : Decoded := decodeFields (splitWord w)

/-- The opcode column of the table of spec 30_encoding.md R71. -/
def opcodeOf : Instr → BitVec 8
  | .modmul => 0x01
  | .modexp => 0x02
  | .egcd => 0x03
  | .modinv => 0x04
  | .primetest => 0x05

/-- `{rsvd, opcode}`, the more significant field first (spec 00_scope.md section 6, 30_encoding.md R70). -/
def joinWord (f : FormatC) : Word := f.rsvd ++ f.opcode

/-- The command word of a command: its opcode with `rsvd` = 0 (spec 30_encoding.md R71). -/
def encode (i : Instr) : Word := joinWord { opcode := opcodeOf i, rsvd := 0 }

/-- The assembler's reading of one line: a mnemonic alone, upper case (spec 30_encoding.md R77). -/
def ofMnemonic (m : String) : Option Instr :=
  if m = "MODMUL" then some .modmul
  else if m = "MODEXP" then some .modexp
  else if m = "EGCD" then some .egcd
  else if m = "MODINV" then some .modinv
  else if m = "PRIMETEST" then some .primetest
  else none

/-- The command that the decoder reads from a word of `nbits` bits numbered as spec/opcode_table.json numbers them.
There is one command length, 32 bits (spec 30_encoding.md R70, R76): bits above `nbits` are 0, and what does not fit
in `nbits` bits, or in one command word, is no command word. -/
def decodeTableWord (nbits w : Nat) : Option Instr :=
  if nbits ≤ 32 ∧ w < 2 ^ nbits then
    match decode (BitVec.ofNat 32 w) with
    | .command i => some i
    | .illegal _ => none
  else none

end Sys2Proof
end

