-- ==== Sys2Proof/Machine/State.lean ====
section
/-! DEFINITION. The state of the block as plain data: the seven data registers and the four control registers of spec
10_state.md (R20 to R29), the live part of the hidden registers (R35, R36), and, marked as the model's own, the
operand width and the two environment agents' pending inputs (00_scope.md R4). -/

namespace Sys2Proof.Machine

/-- The seven data registers `x[name]` of spec 10_state.md R20, in the order of their index. -/
inductive DataReg where
  | a | b | n | res | rx | ry | rg
deriving DecidableEq, Repr

/-- `STATUS.STATE` (spec 10_state.md R27). -/
inductive SeqState where
  /-- no command accepted since reset -/
  | idle
  /-- a command is accepted and not yet finished -/
  | busy
  /-- the last command finished without error -/
  | done
  /-- the last command ended in an error -/
  | error
deriving DecidableEq, Repr

/-- The errors a command can raise (spec 60_exceptions.md R150); codes 4 to 15 are never produced. -/
inductive ErrCode where
  | invalidArgument
  | notInvertible
  | illegalCommand
deriving DecidableEq, Repr

/-- One host access to the register window: `MemRead(off, size)` or `MemWrite(off, size, v)` (spec 20_memory.md R63).
The data of a write is one word; an access of another size is refused whatever it carries (R55). -/
inductive BusAccess where
  | read (off size : Nat)
  | write (off size : Nat) (v : Word)
deriving DecidableEq, Repr

/-- The answer of the block on the host port (spec 20_memory.md R55, R58, R63). -/
inductive BusResp where
  /-- a read that was not refused, with its word -/
  | data (w : Word)
  /-- the normal response to a write, stored or dropped (R58) -/
  | ok
  /-- the bus's error response to a refused access; it carries no data (R55) -/
  | error
deriving DecidableEq, Repr

/-- What happens next, as plain data: which agent moves and how (spec 00_scope.md R4, 20_memory.md R59). -/
inductive Event where
  /-- the core sequencer moves (spec 10_state.md R32) -/
  | core
  /-- the host's access takes effect -/
  | access (acc : BusAccess)
  /-- the random source answers the outstanding request with the word `r` (spec 20_memory.md R66; the late answer to
  an abandoned request has no effect and is no event: assumption log 16) -/
  | answer (r : Nat)
  /-- the reset input is asserted (spec 70_reset_and_hazards.md R180) -/
  | reset
  /-- the host polls `STATUS` until STATE ≠ BUSY: `WAIT` of spec 30_encoding.md R78 -/
  | wait
deriving DecidableEq, Repr

/-- No step faults: every behaviour of the block is defined by the spec, and its errors are codes in `STATUS`, not
machine faults (spec 60_exceptions.md R150, R155, R156). The type is empty, so no step can answer with a fault.
Safe. -/
inductive Fault where
deriving DecidableEq, Repr

/-- A step that has no meaning. No step of the finished model is refused. -/
inductive Refusal where
  /-- raised by `exec` alone, for a command whose meaning has not been written; safe. No arm of `exec` raises it. -/
  | notModelled (mnemonic : String)
deriving DecidableEq, Repr

/-- The state of the machine. The first seven fields are W-bit registers, W = 32 · `limbs`, held as natural numbers
with a range condition (spec 00_scope.md R7, R10). -/
structure State where
  /-- `A`, operand a (spec 10_state.md R20, R21) -/
  a : Nat
  /-- `B`, operand b (R20, R21) -/
  b : Nat
  /-- `N`, the modulus or the candidate (R20, R21) -/
  n : Nat
  /-- `RES`, result of MODMUL, MODEXP, MODINV (R22) -/
  res : Nat
  /-- `RX`, magnitude of the first Bezout coefficient (R23) -/
  rx : Nat
  /-- `RY`, magnitude of the second Bezout coefficient (R23) -/
  ry : Nat
  /-- `RG`, the gcd (R24) -/
  rg : Nat
  /-- `K`, the trial count (R25, 00_scope.md R8) -/
  k : Word
  /-- `CMD`, the command word most recently stored, kept whole (R26) -/
  cmd : Word
  /-- `STATUS.STATE` (R27) -/
  state : SeqState
  /-- `STATUS.ERRCODE`; `none` is code 0 (R27, 60_exceptions.md R150) -/
  errcode : Option ErrCode
  /-- `STATUS.OVR` (R27) -/
  ovr : Bool
  /-- `RFLAGS.VERDICT` (R29) -/
  verdict : Bool
  /-- `RFLAGS.XNEG` (R29) -/
  xneg : Bool
  /-- `RFLAGS.YNEG` (R29) -/
  yneg : Bool
  /-- The hidden register `T` of PRIMETEST (R35) while a random-word request is outstanding: `some t` when t trials
  have passed and the core waits for a word; `none` when no request is outstanding (assumption log 3). -/
  waiting : Option Nat
  /-- The model's own: L = W / 32, the operand width, which no step changes (00_scope.md R7; assumption log 1). -/
  limbs : Nat
  /-- The model's own, environment: the words the random source answers the core's next requests with, in order
  (20_memory.md R66, 44_primetest.md R131; assumption log 2). Empty: the source has not answered yet. -/
  words : List Nat
  /-- The model's own, environment: the events to come, first one first; when empty, the core moves
  (00_scope.md R4; assumption log 4). -/
  sched : List Event
  /-- The model's own: the answer to the last host access (assumption log 5). -/
  resp : Option BusResp
deriving DecidableEq, Repr

/-- The register values after reset for a block of `limbs` limbs (spec 10_state.md R37), with no input pending. -/
def State.resetAt (limbs : Nat) : State :=
  { a := 0, b := 0, n := 0, res := 0, rx := 0, ry := 0, rg := 0
    k := 0, cmd := 0, state := .idle, errcode := none, ovr := false
    verdict := false, xneg := false, yneg := false
    waiting := none, limbs := limbs, words := [], sched := [], resp := none }

/-- The machine right after reset (spec 10_state.md R37, 70_reset_and_hazards.md R180). -/
def State.reset : State := State.resetAt Config.resetLimbs

end Sys2Proof.Machine
end

