-- ==== Sys2Proof/Machine/Flags.lean ====
section
/-! DEFINITION. The words of the two read-only registers `STATUS` and `RFLAGS` (spec 10_state.md R27, R29) and the
sign and magnitude of a Bezout coefficient (R23). -/

namespace Sys2Proof.Machine

/-- The two bits of `STATUS.STATE` (spec 10_state.md R27). -/
def stateBits : SeqState → BitVec 2
  | .idle => 0
  | .busy => 1
  | .done => 2
  | .error => 3

/-- The four bits of `STATUS.ERRCODE` (spec 60_exceptions.md R150); 0 when there is no error. -/
def errBits : Option ErrCode → BitVec 4
  | none => 0
  | some .invalidArgument => 1
  | some .notInvertible => 2
  | some .illegalCommand => 3

/-- `STATUS` as the host reads it: [31:9] 0, [8] OVR, [7:4] ERRCODE, [3:2] 0, [1:0] STATE (spec 10_state.md R27). -/
def statusWord (s : State) : Word :=
  0#23 ++ BitVec.ofBool s.ovr ++ errBits s.errcode ++ 0#2 ++ stateBits s.state

/-- `RFLAGS` as the host reads it: [31:3] 0, [2] YNEG, [1] XNEG, [0] VERDICT (spec 10_state.md R29). -/
def rflagsWord (s : State) : Word :=
  0#29 ++ BitVec.ofBool s.yneg ++ BitVec.ofBool s.xneg ++ BitVec.ofBool s.verdict

/-- The sign flag of a coefficient: 1 exactly when it is negative (spec 42_egcd.md R110). -/
def signFlag (x : Int) : Bool := decide (x < 0)

/-- The signed value of a magnitude and its sign flag (spec 10_state.md R23). -/
def signedValue (neg : Bool) (magnitude : Nat) : Int := if neg then -(magnitude : Int) else (magnitude : Int)

end Sys2Proof.Machine
end

