-- ==== Sys2Proof/Machine/Arith.lean ====
section
/-! DEFINITION. The arithmetic layer: exact functions on natural numbers and integers (spec 00_scope.md R10 to R13),
with the hidden registers of each unit's loop under the spec's names (10_state.md R35). `Nat` and `Int` division and
remainder by a positive number are the floor and the non-negative residue of R11. -/

namespace Sys2Proof.Machine

/-- `bitlen(v)` (spec 00_scope.md R12): 0 for 0, else the n with 2^(n-1) ≤ v < 2^n. -/
def bitlen (v : Nat) : Nat := if v = 0 then 0 else v.log2 + 1

/-- `bit(v, i)` (spec 00_scope.md R12). -/
def bit (v i : Nat) : Nat := v / 2 ^ i % 2

/-- The modular product of every unit, exact for even moduli too (spec 40_modmul.md R90, R92, R93). -/
def mulmod (u v n : Nat) : Nat := u * v % n

/-- The hidden registers of the exponentiation engine (spec 10_state.md R35). -/
structure ModexpRegs where
  /-- the running square -/
  sq : Nat
  /-- the running result -/
  acc : Nat
  /-- index of the exponent bit being processed -/
  i : Nat
deriving DecidableEq, Repr

/-- The start of the loop of spec 41_modexp.md R101: a reduced first, the running result 1 mod n (R102). -/
def modexpInit (a n : Nat) : ModexpRegs := { sq := a % n, acc := 1 % n, i := 0 }

/-- One iteration of spec 41_modexp.md R101: multiply when the bit is set, square in every case. -/
def modexpIter (b n : Nat) (h : ModexpRegs) : ModexpRegs :=
  { acc := if bit b h.i = 1 then mulmod h.acc h.sq n else h.acc
    sq := mulmod h.sq h.sq n
    i := h.i + 1 }

/-- `count` iterations of the loop. -/
def modexpLoop (b n : Nat) : Nat → ModexpRegs → ModexpRegs
  | 0, h => h
  | count + 1, h => modexpLoop b n count (modexpIter b n h)

/-- The value the exponentiation engine commits: bitlen(b) iterations (spec 41_modexp.md R101, R103). -/
def modexp (a b n : Nat) : Nat := (modexpLoop b n (bitlen b) (modexpInit a n)).acc

/-- A Bezout result (x, y, g) (spec 42_egcd.md R111). -/
structure Bezout where
  x : Int
  y : Int
  g : Nat
deriving DecidableEq, Repr

/-- The recursion of spec 42_egcd.md R111 on explicit fuel; `egcd` gives it enough. -/
def egcdFuel : Nat → Nat → Nat → Bezout
  | 0, a, _ => { x := 1, y := 0, g := a }
  | fuel + 1, a, b =>
    if b = 0 then { x := 1, y := 0, g := a }
    else
      match egcdFuel fuel b (a % b) with
      | { x, y, g } => { x := y, y := x - y * ((a / b : Nat) : Int), g := g }

/-- `egcd(a, b)` of spec 42_egcd.md R111. The second argument falls with every call, so b calls are enough. -/
def egcd (a b : Nat) : Bezout := egcdFuel b a b

/-- The hidden registers of the extended GCD unit's forward form (spec 10_state.md R35, 42_egcd.md R112). -/
structure EgcdRegs where
  r0 : Nat
  r1 : Nat
  s0 : Int
  s1 : Int
  t0 : Int
  t1 : Int
deriving DecidableEq, Repr

/-- The start of the loop of spec 42_egcd.md R112. -/
def egcdInit (a b : Nat) : EgcdRegs := { r0 := a, r1 := b, s0 := 1, s1 := 0, t0 := 0, t1 := 1 }

/-- One iteration of spec 42_egcd.md R112, for R1 ≠ 0; R0 - q · R1 is R0 mod R1. -/
def egcdIter (h : EgcdRegs) : EgcdRegs :=
  { r0 := h.r1, r1 := h.r0 % h.r1
    s0 := h.s1, s1 := h.s0 - ((h.r0 / h.r1 : Nat) : Int) * h.s1
    t0 := h.t1, t1 := h.t0 - ((h.r0 / h.r1 : Nat) : Int) * h.t1 }

/-- `while R1 != 0`, on fuel. -/
def egcdLoop : Nat → EgcdRegs → EgcdRegs
  | 0, h => h
  | fuel + 1, h => if h.r1 = 0 then h else egcdLoop fuel (egcdIter h)

/-- The forward form the hardware runs (spec 42_egcd.md R112); R111 remains the definition (92_eei_decisions.md D15),
so the commands use `egcd`. -/
def egcdForward (a b : Nat) : Bezout :=
  let h := egcdLoop b (egcdInit a b)
  { x := h.s0, y := h.t0, g := h.r0 }

/-- The hidden register `INV` of the inverse engine: the second coefficient of egcd(N, b) as the non-negative residue
modulo N (spec 43_modinv.md R120, R121; 00_scope.md R11). -/
def inverseOf (z : Bezout) (n : Nat) : Nat := (z.y % (n : Int)).toNat

/-- One turn of the `repeat` of `draw(n)`: the low bitlen(n - 1) bits of the word, accepted when in [1, n - 1]
(spec 44_primetest.md R131). -/
def witnessOf (n r : Nat) : Option Nat :=
  let c := r % 2 ^ bitlen (n - 1)
  if 1 ≤ c ∧ c ≤ n - 1 then some c else none

/-- One trial passes exactly when w^(n-1) mod n = 1, the power by the engine's algorithm
(spec 44_primetest.md R130, R132). -/
def trialPasses (n w : Nat) : Bool := modexp w (n - 1) n == 1

/-- How a run of trials ends with the words at hand. -/
inductive TrialRun where
  /-- the verdict, and the words not consumed -/
  | verdict (prime : Bool) (rest : List Nat)
  /-- every word is consumed, `t` trials have passed, and the next request is not answered -/
  | starved (t : Nat)
deriving DecidableEq, Repr

/-- The trial loop of spec 44_primetest.md R130 from trial `t` on, one word of the source per request, strictly in
order (R131, R133). No word is requested once the verdict is known. -/
def runTrials (n k : Nat) : Nat → List Nat → TrialRun
  | t, [] => if k ≤ t then .verdict true [] else .starved t
  | t, r :: rest =>
    if k ≤ t then .verdict true (r :: rest)
    else
      match witnessOf n r with
      | none => runTrials n k t rest
      | some w => if trialPasses n w then runTrials n k (t + 1) rest else .verdict false rest

end Sys2Proof.Machine
end

