-- ==== Sys2Proof/Machine/Operands.lean ====
section
/-! DEFINITION. Registers and their limbs: the data registers by name and index (spec 10_state.md R20), limb order
(20_memory.md R53), and which places each command reads and writes (30_encoding.md R75). -/

namespace Sys2Proof.Machine

/-- `x[R]` (spec 00_scope.md section 6, 10_state.md R20). -/
def readReg (s : State) : DataReg → Nat
  | .a => s.a
  | .b => s.b
  | .n => s.n
  | .res => s.res
  | .rx => s.rx
  | .ry => s.ry
  | .rg => s.rg

/-- `x[R] <- v` (spec 00_scope.md section 6). -/
def writeReg (s : State) (r : DataReg) (v : Nat) : State :=
  match r with
  | .a => { s with a := v }
  | .b => { s with b := v }
  | .n => { s with n := v }
  | .res => { s with res := v }
  | .rx => { s with rx := v }
  | .ry => { s with ry := v }
  | .rg => { s with rg := v }

/-- The index column of spec 10_state.md R20, which is also the bank number. -/
def regIndex : DataReg → Nat
  | .a => 0
  | .b => 1
  | .n => 2
  | .res => 3
  | .rx => 4
  | .ry => 5
  | .rg => 6

/-- The register of a bank number (spec 10_state.md R20, 20_memory.md R52). -/
def regOfIndex : Nat → Option DataReg
  | 0 => some .a
  | 1 => some .b
  | 2 => some .n
  | 3 => some .res
  | 4 => some .rx
  | 5 => some .ry
  | 6 => some .rg
  | _ => none

/-- The operand registers, which the host writes; the others are written by the core alone (spec 10_state.md R20). -/
def isOperand : DataReg → Bool
  | .a => true
  | .b => true
  | .n => true
  | .res => false
  | .rx => false
  | .ry => false
  | .rg => false

/-- Limb j of a value: bits [32·j + 31 : 32·j] (spec 20_memory.md R53). -/
def limb (x j : Nat) : Word := BitVec.ofNat 32 (x / 2 ^ (32 * j))

/-- The value with limb j replaced by v, the other limbs left alone (spec 20_memory.md R53). -/
def setLimb (x j : Nat) (v : Word) : Nat := x - (limb x j).toNat * 2 ^ (32 * j) + v.toNat * 2 ^ (32 * j)

/-- The value of a list of limbs, least significant first: the sum of word_j · 2^(32·j) (spec 20_memory.md R53,
30_encoding.md R78). -/
def joinLimbs : List Word → Nat
  | [] => 0
  | w :: ws => w.toNat + 2 ^ 32 * joinLimbs ws

/-- The places a command can read or write (the columns of spec 30_encoding.md R75). -/
inductive Place where
  | reg (r : DataReg)
  | k
  | verdict
  | xneg
  | yneg
deriving DecidableEq, Repr

/-- The value at a place, a flag as 0 or 1. -/
def readPlace (s : State) : Place → Nat
  | .reg r => readReg s r
  | .k => s.k.toNat
  | .verdict => s.verdict.toNat
  | .xneg => s.xneg.toNat
  | .yneg => s.yneg.toNat

/-- The "reads" column of spec 30_encoding.md R75. -/
def readsOf : Instr → List Place
  | .modmul => [.reg .a, .reg .b, .reg .n]
  | .modexp => [.reg .a, .reg .b, .reg .n]
  | .egcd => [.reg .a, .reg .b]
  | .modinv => [.reg .a, .reg .b, .reg .n]
  | .primetest => [.reg .n, .k]

/-- The "writes on success" column of spec 30_encoding.md R75. -/
def writesOf : Instr → List Place
  | .modmul => [.reg .res]
  | .modexp => [.reg .res]
  | .egcd => [.reg .rx, .reg .ry, .reg .rg, .xneg, .yneg]
  | .modinv => [.reg .res]
  | .primetest => [.verdict]

/-- The "can raise" column of spec 30_encoding.md R75. -/
def raisesOf : Instr → List ErrCode
  | .modmul => [.invalidArgument]
  | .modexp => [.invalidArgument]
  | .egcd => []
  | .modinv => [.invalidArgument, .notInvertible]
  | .primetest => [.invalidArgument]

end Sys2Proof.Machine
end

