-- ==== Sys2Proof/Machine/Ops.lean ====
section
/-! DEFINITION. The named operations every command and every event is written with: commit and raise, the two ways a
command ends (spec 10_state.md R33, 60_exceptions.md R155); accept, which starts the next one and clears an error,
there being no return from an error (R157); the fetch of the command word; reset; the random-word port. -/

namespace Sys2Proof.Machine

/-- What one move of the machine answers. -/
abbrev Result := Host.Outcome State Fault Refusal

/-- The end of a successful command, applied to the state in which its results are written: STATE is DONE and ERRCODE
stays as the accept left it (spec 10_state.md R33). No random-word request is outstanding afterwards. -/
def commit (s : State) : State := { s with state := .done, waiting := none }

/-- `raise Err(code)`, the block's one kind of exception: ERRCODE and STATE are written and nothing else
(spec 60_exceptions.md R155). Nothing is saved and control goes nowhere (R156). No random-word request is outstanding
afterwards. -/
def raise (code : ErrCode) (s : State) : Result :=
  .next { s with errcode := some code, state := .error, waiting := none }

/-- The accept event: the word is stored, whatever it is, STATE is BUSY, and ERRCODE and OVR are cleared
(spec 10_state.md R26, R31). It is also all the "return" from an error there is (60_exceptions.md R157). The hidden
register T starts anew with the command (10_state.md R36). -/
def accept (w : Word) (s : State) : State :=
  { s with cmd := w, state := .busy, errcode := none, ovr := false, waiting := none }

/-- The command in execution is the one in `CMD` (spec 10_state.md R30, R32); there is no other fetch. -/
def fetch (s : State) : Decoded := decode s.cmd

/-- A request on the random-word port that has no answer yet (spec 20_memory.md R66, 10_state.md R38). -/
def requestPending (s : State) : Bool := s.waiting.isSome && s.words.isEmpty

/-- The random source answers. A word that answers no outstanding request is discarded
(spec 20_memory.md R66, 70_reset_and_hazards.md R180). DESIGN CHOICE (assumption log 16): a word that arrives while a
request is outstanding answers that request; the late answer to a request that a reset abandoned is discarded whenever
it comes, so it is no event. The port carries W bits, so the word is taken modulo 2^W. -/
def answerRandom (r : Nat) (s : State) : State :=
  if requestPending s then { s with words := [r % 2 ^ (32 * s.limbs)] } else s

/-- The words left to later commands when a command is abandoned: a word that answers the abandoned command's request
is discarded (spec 70_reset_and_hazards.md R180); the source itself is not reset (R181). -/
def wordsAfterReset (s : State) : List Nat := if s.waiting.isSome then s.words.drop 1 else s.words

/-- Reset, in any state: every architectural register takes its reset value and a running command is abandoned
(spec 70_reset_and_hazards.md R180, 10_state.md R37). The width and the environment's inputs are not the block's
registers. -/
def resetBlock (s : State) : State :=
  { State.resetAt s.limbs with words := wordsAfterReset s, sched := s.sched, resp := s.resp }

end Sys2Proof.Machine
end

