-- ==== Sys2Proof/Machine/Egcd.lean ====
section
/-! DEFINITION. The extended GCD unit (spec 42_egcd.md). -/

namespace Sys2Proof.Machine

/-- The Bezout result as the block stores it: each coefficient as sign and magnitude (spec 42_egcd.md R110,
10_state.md R23). -/
def storeBezout (z : Bezout) (s : State) : State :=
  { s with
    rx := z.x.natAbs, xneg := signFlag z.x
    ry := z.y.natAbs, yneg := signFlag z.y
    rg := z.g }

/-- `EGCD` (spec 42_egcd.md R110): total, no error. -/
def execEgcd (s : State) : Result := .next (commit (storeBezout (egcd s.a s.b) s))

end Sys2Proof.Machine
end

