-- ==== Sys2Proof/Machine/Modexp.lean ====
section
/-! DEFINITION. The modular exponentiation engine (spec 41_modexp.md). -/

namespace Sys2Proof.Machine

/-- `MODEXP` (spec 41_modexp.md R100), by the algorithm of R101; InvalidArgument when N = 0. -/
def execModexp (s : State) : Result :=
  if s.n = 0 then raise .invalidArgument s
  else .next (commit { s with res := modexp s.a s.b s.n })

end Sys2Proof.Machine
end

