-- ==== Sys2Proof/Machine/Modinv.lean ====
section
/-! DEFINITION. The modular inverse engine (spec 43_modinv.md). -/

namespace Sys2Proof.Machine

/-- `MODINV` (spec 43_modinv.md R120): InvalidArgument when N = 0, then NotInvertible when gcd(B, N) ≠ 1, whatever A
is; else A times the inverse of B. The Bezout result of egcd(N, B) stays inside the unit. -/
def execModinv (s : State) : Result :=
  if s.n = 0 then raise .invalidArgument s
  else if (egcd s.n s.b).g = 1 then
    .next (commit { s with res := mulmod s.a (inverseOf (egcd s.n s.b) s.n) s.n })
  else raise .notInvertible s

end Sys2Proof.Machine
end

