-- ==== Sys2Proof/Machine/Modmul.lean ====
section
/-! DEFINITION. The modular multiplier unit (spec 40_modmul.md). -/

namespace Sys2Proof.Machine

/-- `MODMUL` (spec 40_modmul.md R90): the plain modular product for every N > 0; InvalidArgument when N = 0. -/
def execModmul (s : State) : Result :=
  if s.n = 0 then raise .invalidArgument s
  else .next (commit { s with res := mulmod s.a s.b s.n })

end Sys2Proof.Machine
end

