-- ==== Sys2Proof/Machine/Primetest.lean ====
section
/-! DEFINITION. The primality test core, which runs the Fermat test (spec 44_primetest.md, 90_conflicts.md C2). -/

namespace Sys2Proof.Machine

/-- What a run of trials does to the machine. A starved run leaves the command BUSY with its request outstanding and
the count of passed trials in T; the core takes it up again there (spec 44_primetest.md R138, 20_memory.md R66). -/
def endTrials (s : State) : TrialRun → State
  | .verdict prime rest => commit { s with verdict := prime, words := rest }
  | .starved t => { s with waiting := some t, words := [] }

/-- `PRIMETEST` (spec 44_primetest.md R130): InvalidArgument when N < 2, before any word is requested; else up to K
trials, from the trial whose request was outstanding if there is one. -/
def execPrimetest (s : State) : Result :=
  if s.n < 2 then raise .invalidArgument s
  else .next (endTrials s (runTrials s.n s.k.toNat (s.waiting.getD 0) s.words))

end Sys2Proof.Machine
end

