-- ==== Sys2Proof/Machine/Dispatch.lean ====
section
/-! DEFINITION. One arm per command (spec 10_state.md R32, 30_encoding.md R71). -/

namespace Sys2Proof.Machine

def exec (i : Instr) (s : State) : Host.Outcome State Fault Refusal :=
  match i with
  | .modmul => Sys2Proof.Machine.execModmul s
  | .modexp => Sys2Proof.Machine.execModexp s
  | .egcd => Sys2Proof.Machine.execEgcd s
  | .modinv => Sys2Proof.Machine.execModinv s
  | .primetest => Sys2Proof.Machine.execPrimetest s

end Sys2Proof.Machine
end

