-- ==== Sys2Proof/Machine/Window.lean ====
section
/-! DEFINITION. The register window: the map, the refused accesses, reads and writes (spec 20_memory.md R50 to R63).
It is the block's only address space; there is no memory behind it. -/

namespace Sys2Proof.Machine

/-- What is mapped at an offset (spec 20_memory.md R52). -/
inductive Location where
  | cmd
  | status
  | k
  | rflags
  | limbOf (r : DataReg) (j : Nat)
deriving DecidableEq, Repr

/-- The first offset of a register's bank: bank b starts at 0x400 · (b + 1) (spec 20_memory.md R52). -/
def bankStart (r : DataReg) : Nat := 0x400 * (regIndex r + 1)

/-- The map of spec 20_memory.md R52 for a block of `limbs` limbs: `none` where the offset is unmapped or is no
multiple of 4 (R55). -/
def locate (limbs off : Nat) : Option Location :=
  if off % 4 ≠ 0 then none
  else if off = 0x0000 then some .cmd
  else if off = 0x0004 then some .status
  else if off = 0x0008 then some .k
  else if off = 0x000C then some .rflags
  else if off < 0x0400 then none
  else if off % 0x400 / 4 < limbs then
    (regOfIndex (off / 0x400 - 1)).map (fun r => .limbOf r (off % 0x400 / 4))
  else none

/-- The access column of spec 20_memory.md R52. -/
def writable : Location → Bool
  | .cmd => true
  | .status => false
  | .k => true
  | .rflags => false
  | .limbOf r _ => isOperand r

/-- The word at a location now (spec 20_memory.md R53, R56; 10_state.md R25 to R29). -/
def readLocation (s : State) : Location → Word
  | .cmd => s.cmd
  | .status => statusWord s
  | .k => s.k
  | .rflags => rflagsWord s
  | .limbOf r j => limb (readReg s r) j

/-- The effect of a write that is neither refused nor dropped (spec 20_memory.md R57). A read-only location has no
such write. -/
def writeLocation (s : State) (v : Word) : Location → State
  | .cmd => accept v s
  | .status => s
  | .k => { s with k := v }
  | .rflags => s
  | .limbOf r j => if isOperand r then writeReg s r (setLimb (readReg s r) j v) else s

/-- `MemRead(off, size)`: the word, or the error response with no data; no other effect (spec 20_memory.md R55, R56,
R63). -/
def busRead (off size : Nat) (s : State) : State :=
  match (if size = 4 then locate s.limbs off else none) with
  | some loc => { s with resp := some (.data (readLocation s loc)) }
  | none => { s with resp := some .error }

/-- `MemWrite(off, size, v)`: refused (spec 20_memory.md R55), or dropped while BUSY with OVR set (R58), or done
(R57). -/
def busWrite (off size : Nat) (v : Word) (s : State) : State :=
  match (if size = 4 then locate s.limbs off else none) with
  | some loc =>
    if writable loc then
      if s.state = .busy then { s with ovr := true, resp := some .ok }
      else { writeLocation s v loc with resp := some .ok }
    else { s with resp := some .error }
  | none => { s with resp := some .error }

/-- One host access takes effect whole (spec 20_memory.md R59, R62). -/
def busAccess (acc : BusAccess) (s : State) : State :=
  match acc with
  | .read off size => busRead off size s
  | .write off size v => busWrite off size v s

end Sys2Proof.Machine
end

