-- ==== Sys2Proof/Machine/Sequencer.lean ====
section
/-! DEFINITION. The moves of the three agents (spec 00_scope.md R4): the core sequencer, the host with its accesses,
its polling and the reset input, and the random source. -/

namespace Sys2Proof.Machine

/-- The core's move: while BUSY it decodes `CMD` and runs the command, an illegal word raising IllegalCommand
(spec 10_state.md R32, 30_encoding.md R80, 60_exceptions.md R152); otherwise it is at rest and nothing changes
(10_state.md R34). -/
def coreMove (s : State) : Result :=
  if s.state = .busy then
    match fetch s with
    | .command i => exec i s
    | .illegal _ => raise .illegalCommand s
  else .next s

/-- The first answer or reset among the events to come, taken out of the list, with what is left; `none` when there
is none. -/
def firstInput : List Event → Option (Event × List Event)
  | [] => none
  | .answer r :: rest => some (.answer r, rest)
  | .reset :: rest => some (.reset, rest)
  | e :: rest => (firstInput rest).map (fun p => (p.1, e :: p.2))

/-- What comes after a poll that read BUSY. DESIGN CHOICE (assumption log 8): between two polls the core moves; but
while its random-word request is unanswered its move changes nothing, and then the first answer or reset listed is
taken, ahead of the host's own listed accesses, which wait for the `WAIT` to end. So an answer or a reset can end the
`WAIT` of a starved PRIMETEST, and nothing else can (spec 70_reset_and_hazards.md R190, 44_primetest.md R138). -/
def afterBusyPoll (s : State) : List Event :=
  match (if requestPending s then firstInput s.sched else none) with
  | some (e, rest) => e :: .wait :: rest
  | none => .core :: .wait :: s.sched

/-- One turn of `WAIT` (spec 30_encoding.md R78): read `STATUS`; while it shows BUSY another agent moves and the host
reads again, as the fairness of 70_reset_and_hazards.md R190 needs. Which agent may move between two polls is the
model's DESIGN CHOICE (`afterBusyPoll`, assumption log 8). -/
def pollStatus (s : State) : State :=
  let t := busRead 0x0004 4 s
  if s.state = .busy then { t with sched := afterBusyPoll s } else t

/-- One event, already taken off the schedule. -/
def takeEvent (e : Event) (s : State) : Result :=
  match e with
  | .core => coreMove s
  | .access acc => .next (busAccess acc s)
  | .answer r => .next (answerRandom r s)
  | .reset => .next (resetBlock s)
  | .wait => .next (pollStatus s)

/-- The next event in the one total order of host accesses and core moves (spec 20_memory.md R59); with none listed,
the core moves. -/
def runNext (s : State) : Result :=
  match s.sched with
  | [] => coreMove s
  | e :: rest => takeEvent e { s with sched := rest }

end Sys2Proof.Machine
end

