-- ==== Sys2Proof/Machine/Step.lean ====
section
/-! DEFINITION. One step of the machine, and how a command word comes to be the one that runs next. -/

namespace Sys2Proof.Machine

/-- One step: the next event, or the core's move (spec 00_scope.md R4, 20_memory.md R59). -/
def step (s : State) : Host.Outcome State Fault Refusal := runNext s

/-- The machine does not fetch: a command runs because the host wrote it to `CMD` (spec 10_state.md R30, R31). So `s`
with a word where the next command is taken from is `s` just after the accept of that word, with the core to move
next (assumption log 6). -/
def State.withFetchWord (s : State) (nbits w : Nat) : State :=
  { accept (BitVec.ofNat 32 (w % 2 ^ nbits)) s with sched := .core :: s.sched }

end Sys2Proof.Machine
end

