-- ==== Sys2Proof/Machine/Script.lean ====
section
/-! DEFINITION. The host-script notation of spec 30_encoding.md R77 to R79 as lists of events. `WAIT` is the event
`.wait`. -/

namespace Sys2Proof.Machine

/-- `LD R, v`: all L limbs of v, the zero ones included, limb 0 first (spec 30_encoding.md R78). -/
def scriptLD (limbs : Nat) (r : DataReg) (v : Nat) : List Event :=
  (List.range limbs).map (fun j => .access (.write (bankStart r + 4 * j) 4 (limb v j)))

/-- `SETK v` (spec 30_encoding.md R78). -/
def scriptSETK (v : Word) : List Event := [.access (.write 0x0008 4 v)]

/-- `ISSUE m`: the command word written to `CMD` (spec 30_encoding.md R77, R78). -/
def scriptISSUE (m : Instr) : List Event := [.access (.write 0x0000 4 (encode m))]

/-- `WAIT` (spec 30_encoding.md R78). -/
def scriptWAIT : List Event := [.wait]

/-- `RD R`: one read per limb, limb 0 first (spec 30_encoding.md R78). -/
def scriptRD (limbs : Nat) (r : DataReg) : List Event :=
  (List.range limbs).map (fun j => .access (.read (bankStart r + 4 * j) 4))

/-- `RDF` (spec 30_encoding.md R78). -/
def scriptRDF : List Event := [.access (.read 0x000C 4)]

/-- `RDS` (spec 30_encoding.md R78). -/
def scriptRDS : List Event := [.access (.read 0x0004 4)]

/-- `encrypt(message, exponent, modulus)`, one MODEXP (spec 30_encoding.md R79, 41_modexp.md R104). -/
def scriptEncrypt (limbs message exponent modulus : Nat) : List Event :=
  scriptLD limbs .a message ++ scriptLD limbs .b exponent ++ scriptLD limbs .n modulus ++
    scriptISSUE .modexp ++ scriptWAIT ++ scriptRD limbs .res

/-- `decrypt(ciphertext, private_exponent, modulus)`, one MODEXP (spec 30_encoding.md R79, 41_modexp.md R104). -/
def scriptDecrypt (limbs ciphertext privateExponent modulus : Nat) : List Event :=
  scriptLD limbs .a ciphertext ++ scriptLD limbs .b privateExponent ++ scriptLD limbs .n modulus ++
    scriptISSUE .modexp ++ scriptWAIT ++ scriptRD limbs .res

/-- `mod_inverse(a, b, N)`, one MODINV (spec 30_encoding.md R79). -/
def scriptModInverse (limbs a b n : Nat) : List Event :=
  scriptLD limbs .a a ++ scriptLD limbs .b b ++ scriptLD limbs .n n ++
    scriptISSUE .modinv ++ scriptWAIT ++ scriptRD limbs .res

end Sys2Proof.Machine
end

