-- ==== Sys2Proof/Safety.lean ====
section
/-! DEFINITION. What counts as a safe run, the invariant of the block's states, and the words of the spec that the
claims use: the relation of the recursive Euclid (spec 42_egcd.md R111) and the accepted witnesses
(44_primetest.md R133). -/

namespace Sys2Proof

open Sys2Proof.Machine

/-- A run of `k` steps from `s` is safe when no step stops it. -/
def SafeRun (k : Nat) (s : State) : Prop := ∃ t, Sys2Proof.core.run k s = .next t

/-- The states of the block: every register in its range and the status fields consistent with each other. -/
structure Inv (s : State) : Prop where
  /-- W is one of the widths of spec 00_scope.md R7. -/
  width : Config.limbsWf s.limbs = true
  /-- Every data register is in [0, 2^W) (spec 10_state.md R20). -/
  ranges : ∀ r : DataReg, readReg s r < 2 ^ (32 * s.limbs)
  /-- ERRCODE is nonzero exactly when STATE = ERROR (spec 10_state.md R27). -/
  errcodeIffError : s.errcode.isSome = true ↔ s.state = .error
  /-- There is no negative zero (spec 10_state.md R23). -/
  xnegNonzero : s.xneg = true → s.rx ≠ 0
  /-- There is no negative zero (spec 10_state.md R23). -/
  ynegNonzero : s.yneg = true → s.ry ≠ 0
  /-- With STATE = IDLE the result registers, RFLAGS, CMD and OVR hold their reset values
  (spec 70_reset_and_hazards.md R186, 10_state.md R27). -/
  idleFresh : s.state = .idle → s.res = 0 ∧ s.rx = 0 ∧ s.ry = 0 ∧ s.rg = 0 ∧ s.verdict = false ∧
    s.xneg = false ∧ s.yneg = false ∧ s.cmd = 0 ∧ s.ovr = false
  /-- The random-word port carries W-bit words (spec 20_memory.md R66). -/
  wordsInRange : ∀ r ∈ s.words, r < 2 ^ (32 * s.limbs)
  /-- A random-word request is outstanding only inside a PRIMETEST that still has a trial to run, and it has at most
  one answer (spec 20_memory.md R66). -/
  waitingLegal : ∀ t, s.waiting = some t →
    s.state = .busy ∧ s.cmd = encode .primetest ∧ 2 ≤ s.n ∧ t < s.k.toNat ∧ s.words.length ≤ 1

/-- It is the core's turn to move, with `rest` still to come (spec 00_scope.md R4, 20_memory.md R59). -/
def CoreTurn (s : State) (rest : List Event) : Prop :=
  (s.sched = [] ∧ rest = []) ∨ s.sched = .core :: rest

/-- The offsets mapped in a block of `limbs` limbs, in the words of the table of spec 20_memory.md R52. -/
def Mapped (limbs off : Nat) : Prop :=
  off = 0x0000 ∨ off = 0x0004 ∨ off = 0x0008 ∨ off = 0x000C ∨
    ∃ b j, b < 7 ∧ j < limbs ∧ off = 0x400 * (b + 1) + 4 * j

/-- The mapped offsets that may be written: `CMD`, `K` and the limbs of `A`, `B`, `N` (spec 20_memory.md R52). -/
def MappedWritable (limbs off : Nat) : Prop :=
  off = 0x0000 ∨ off = 0x0008 ∨ ∃ b j, b < 3 ∧ j < limbs ∧ off = 0x400 * (b + 1) + 4 * j

/-- `(x, y, g) = egcd(a, b)` as the recursive definition of spec 42_egcd.md R111 gives it. -/
inductive EgcdDefines : Nat → Nat → Int → Int → Nat → Prop where
  | base (a : Nat) : EgcdDefines a 0 1 0 a
  | recurse {a b : Nat} {x' y' : Int} {g : Nat} (hb : 0 < b) (h : EgcdDefines b (a % b) x' y' g) :
      EgcdDefines a b y' (x' - y' * ((a / b : Nat) : Int)) g

/-- The witnesses accepted from a list of random words, in order (spec 44_primetest.md R131, R133). -/
def acceptedWitnesses (n : Nat) (words : List Nat) : List Nat := words.filterMap (witnessOf n)

/-- A witness passes the trial of the candidate n (spec 44_primetest.md R132). -/
def Passes (n w : Nat) : Prop := w ^ (n - 1) % n = 1

end Sys2Proof
end

