-- ==== Sys2Proof/Certificates/Slice0/Obligations.lean ====
section
/-! DEFINITION. The statements for the provers, in the order of the spec's files: encoding, state and sequencer,
register window, the five commands, errors, reset. Every docstring names the rule of spec/ it formalises. -/

open Sys2Proof Sys2Proof.Machine

/-! ### Encoding and decode (spec 30_encoding.md) -/

/-- R71: the five command words, in both directions, with their mnemonics (R77). -/
def Obligations.CommandWordsOfTheOpcodeTable : Prop :=
  (decode 0x00000001#32 = .command .modmul ∧ encode .modmul = 0x00000001#32 ∧ Instr.modmul.mnemonic = "MODMUL") ∧
  (decode 0x00000002#32 = .command .modexp ∧ encode .modexp = 0x00000002#32 ∧ Instr.modexp.mnemonic = "MODEXP") ∧
  (decode 0x00000003#32 = .command .egcd ∧ encode .egcd = 0x00000003#32 ∧ Instr.egcd.mnemonic = "EGCD") ∧
  (decode 0x00000004#32 = .command .modinv ∧ encode .modinv = 0x00000004#32 ∧ Instr.modinv.mnemonic = "MODINV") ∧
  (decode 0x00000005#32 = .command .primetest ∧ encode .primetest = 0x00000005#32 ∧
    Instr.primetest.mnemonic = "PRIMETEST")

/-- R80, R70: a word decodes to a command exactly when it is that command's encoding, so decode and encode agree and
no other of the 2^32 words is a command. -/
def Obligations.DecodeAndEncodeAgree : Prop :=
  ∀ (w : Word) (i : Instr), decode w = .command i ↔ w = encode i

/-- R72, R73: a word with nonzero bits [31:8] is illegal whatever its opcode, and with them zero the opcodes 0x00 and
0x06 to 0xFF are illegal; no other word is. -/
def Obligations.IllegalWordsAreRejectedByName : Prop :=
  ∀ w : Word,
    (decode w = .illegal .reservedBits ↔ 0x100 ≤ w.toNat) ∧
    (decode w = .illegal .reservedOpcode ↔ w.toNat = 0 ∨ (0x06 ≤ w.toNat ∧ w.toNat < 0x100))

/-! ### The sequencer (spec 10_state.md R28 to R34) -/

/-- R32: on the core's turn in a BUSY state whose `CMD` decodes to a command, the step is that command's meaning, the
event being off the schedule. -/
def Obligations.StepRunsTheDecodedCommand : Prop :=
  ∀ (s : State) (i : Instr) (rest : List Event),
    s.state = .busy → decode s.cmd = .command i → CoreTurn s rest →
      step s = exec i { s with sched := rest }

/-- The model's interface (assumption log 6): a word placed by `withFetchWord` is run by the very next step, as after
the accept of R31. -/
def Obligations.PlacedCommandRunsNext : Prop :=
  ∀ (s : State) (i : Instr),
    step (s.withFetchWord 32 (encode i).toNat) =
      exec i { s with cmd := encode i, state := .busy, errcode := none, ovr := false, waiting := none }

/-- R31: a write to `CMD` in a state that is not BUSY stores the word, whatever it is, sets BUSY and clears ERRCODE
and OVR, and changes nothing else of the block; and while the command stays BUSY no step changes the operand
registers, `K` or `CMD`. -/
def Obligations.AcceptStartsACommand : Prop :=
  (∀ (s : State) (w : Word) (rest : List Event),
    s.state ≠ .busy → s.sched = .access (.write 0x0000 4 w) :: rest →
      step s = .next { s with
        cmd := w, state := .busy, errcode := none, ovr := false, waiting := none, sched := rest, resp := some .ok }) ∧
  (∀ s t : State, s.state = .busy → step s = .next t → t.state = .busy →
    t.a = s.a ∧ t.b = s.b ∧ t.n = s.n ∧ t.k = s.k ∧ t.cmd = s.cmd)

/-- R28: STATE moves only by an accept (to BUSY, by the host), by a completion (out of BUSY, by the core) or by reset
(to IDLE). -/
def Obligations.StateMovesOnlyAlongItsEdges : Prop :=
  ∀ s t : State, step s = .next t → t.state ≠ s.state →
    (s.state ≠ .busy ∧ t.state = .busy ∧ ∃ w rest, s.sched = .access (.write 0x0000 4 w) :: rest) ∨
    (s.state = .busy ∧ (t.state = .done ∨ t.state = .error) ∧ ∃ rest, CoreTurn s rest) ∨
    (t.state = .idle ∧ ∃ rest, s.sched = .reset :: rest)

/-- R34: when no command is in execution the core's move changes nothing. -/
def Obligations.CoreRestsWhenNotBusy : Prop :=
  ∀ (s : State) (rest : List Event), s.state ≠ .busy → CoreTurn s rest → step s = .next { s with sched := rest }

/-- R14: no command modifies an operand register: whatever the outcome, `A`, `B`, `N` and `K` hold what they held,
and so do the command word, OVR, the width and the host's side; and the places any command writes are disjoint from
the places any command reads. -/
def Obligations.NoCommandModifiesAnOperand : Prop :=
  (∀ (i : Instr) (s t : State), exec i s = .next t →
    t.a = s.a ∧ t.b = s.b ∧ t.n = s.n ∧ t.k = s.k ∧ t.cmd = s.cmd ∧ t.ovr = s.ovr ∧
    t.limbs = s.limbs ∧ t.sched = s.sched ∧ t.resp = s.resp) ∧
  (∀ (i j : Instr) (p : Place), p ∈ writesOf i → p ∉ readsOf j)

/-- R75, R33: a register not listed under "writes" keeps its value; a command that ends in DONE leaves ERRCODE as it
was; on an error nothing listed is written either, and the error is one of the "can raise" column. -/
def Obligations.CommandsWriteAndRaiseWhatTheTableLists : Prop :=
  ∀ (i : Instr) (s t : State), exec i s = .next t →
    (∀ p : Place, p ∉ writesOf i → readPlace t p = readPlace s p) ∧
    (s.state = .busy → t.state = .done → t.errcode = s.errcode) ∧
    (s.state = .busy → t.state = .error →
      (∀ p : Place, readPlace t p = readPlace s p) ∧ ∃ c ∈ raisesOf i, t.errcode = some c)

/-- R15, R75: the outcome of a command is a function of the registers listed under "reads", and for PRIMETEST of the
random words (and the trial it had reached); nothing else has influence on it. -/
def Obligations.OutcomeDependsOnlyOnOperandsRead : Prop :=
  ∀ (i : Instr) (s₁ s₂ t₁ t₂ : State),
    s₁.state = .busy → s₂.state = .busy → s₁.errcode = none → s₂.errcode = none →
    (∀ p ∈ readsOf i, readPlace s₁ p = readPlace s₂ p) →
    (i = .primetest → s₁.words = s₂.words ∧ s₁.waiting = s₂.waiting) →
    exec i s₁ = .next t₁ → exec i s₂ = .next t₂ →
      t₁.state = t₂.state ∧ t₁.errcode = t₂.errcode ∧
      (t₁.state = .done → ∀ p ∈ writesOf i, readPlace t₁ p = readPlace t₂ p) ∧
      (i = .primetest → t₁.state = .done → t₁.words = t₂.words)

/-- R75, R52, in terms of the window: the only mapped words a command can change are `STATUS` and its own results. -/
def Obligations.CommandFrameInTheWindow : Prop :=
  ∀ (i : Instr) (s t : State) (off : Nat) (loc : Location),
    exec i s = .next t → locate s.limbs off = some loc → readLocation t loc ≠ readLocation s loc →
      loc = .status ∨
      (loc = .rflags ∧ (i = .egcd ∨ i = .primetest)) ∨
      (∃ j, loc = .limbOf .res j ∧ (i = .modmul ∨ i = .modexp ∨ i = .modinv)) ∨
      (∃ r j, loc = .limbOf r j ∧ (r = .rx ∨ r = .ry ∨ r = .rg) ∧ i = .egcd)

/-- R24: `RX`, `RY`, `RG`, XNEG and YNEG change in one way only, at the core's move of an `EGCD` command, but for
reset. -/
def Obligations.BezoutResultsChangeOnlyByEgcd : Prop :=
  ∀ s t : State, step s = .next t → (∀ rest, s.sched ≠ .reset :: rest) →
    ¬ (s.state = .busy ∧ decode s.cmd = .command .egcd ∧ ∃ rest, CoreTurn s rest) →
      t.rx = s.rx ∧ t.ry = s.ry ∧ t.rg = s.rg ∧ t.xneg = s.xneg ∧ t.yneg = s.yneg

/-- R27, R29: every bit of the words the host reads at `STATUS` and `RFLAGS`. -/
def Obligations.StatusAndFlagWordLayout : Prop :=
  ∀ s : State,
    (statusWord s).toNat =
      (match s.state with | .idle => 0 | .busy => 1 | .done => 2 | .error => 3) +
      16 * (match s.errcode with
        | none => 0 | some .invalidArgument => 1 | some .notInvertible => 2 | some .illegalCommand => 3) +
      256 * s.ovr.toNat ∧
    (rflagsWord s).toNat = s.verdict.toNat + 2 * s.xneg.toNat + 4 * s.yneg.toNat

/-! ### The invariant -/

/-- Every step keeps the invariant of the block's states, from every state that has it: registers in [0, 2^W) (R20,
R113), ERRCODE nonzero exactly in ERROR (R27), no negative zero (R23), reset values while IDLE (R186), and a random
word requested only by a PRIMETEST in execution (R66). -/
def Obligations.EveryStepKeepsTheInvariant : Prop :=
  ∀ s t : State, Inv s → step s = .next t → Inv t

/-- The invariant holds right after reset, for every operand width of R7; `State.reset` is one of these (its width is
the model's choice, assumption log 1). -/
def Obligations.ResetMeetsTheInvariant : Prop :=
  (∀ limbs : Nat, Config.limbsWf limbs = true → Inv (State.resetAt limbs)) ∧ Inv State.reset

/-- Nothing stops the machine: from every state every run of every length goes on. That no step faults or is refused
is the model's reading (assumption log 15, DEDUCED), from the rules that errors are codes in `STATUS` (R155, R156),
refused accesses bus responses (R55), and a starved PRIMETEST is BUSY (R138). -/
def Obligations.NoRunEverStops : Prop := ∀ (k : Nat) (s : State), SafeRun k s

/-! ### The register window (spec 20_memory.md) -/

/-- R55: an access of another size, at an offset that is no multiple of 4 or is unmapped, and a write to a read-only
register are refused: the error response, no data, no state change, not even OVR. -/
def Obligations.RefusedAccessChangesNothing : Prop :=
  ∀ (s : State) (off size : Nat) (v : Word) (rest : List Event), Config.limbsWf s.limbs = true →
    ((size ≠ 4 ∨ off % 4 ≠ 0 ∨ ¬ Mapped s.limbs off) → s.sched = .access (.read off size) :: rest →
      step s = .next { s with sched := rest, resp := some .error }) ∧
    ((size ≠ 4 ∨ off % 4 ≠ 0 ∨ ¬ MappedWritable s.limbs off) → s.sched = .access (.write off size v) :: rest →
      step s = .next { s with sched := rest, resp := some .error })

/-- R52, R53, R56: a read of a mapped word returns its current value and changes nothing, in any state. -/
def Obligations.ReadsReturnTheMappedWord : Prop :=
  ∀ (s : State) (off : Nat) (rest : List Event), s.sched = .access (.read off 4) :: rest →
    (off = 0x0000 → step s = .next { s with sched := rest, resp := some (.data s.cmd) }) ∧
    (off = 0x0004 → step s = .next { s with sched := rest, resp := some (.data (statusWord s)) }) ∧
    (off = 0x0008 → step s = .next { s with sched := rest, resp := some (.data s.k) }) ∧
    (off = 0x000C → step s = .next { s with sched := rest, resp := some (.data (rflagsWord s)) }) ∧
    (∀ (r : DataReg) (j : Nat), Config.limbsWf s.limbs = true → j < s.limbs →
      off = 0x400 * (regIndex r + 1) + 4 * j →
        step s = .next { s with
          sched := rest, resp := some (.data (BitVec.ofNat 32 (readReg s r / 2 ^ (32 * j) % 2 ^ 32))) })

/-- R58: while BUSY a write to any writable location is dropped: the location keeps its value, the response is the
normal one, and OVR is 1; the next accept and reset clear it. -/
def Obligations.WritesWhileBusyAreDropped : Prop :=
  (∀ (s : State) (off : Nat) (v : Word) (rest : List Event), Config.limbsWf s.limbs = true →
    s.state = .busy → MappedWritable s.limbs off → s.sched = .access (.write off 4 v) :: rest →
      step s = .next { s with ovr := true, sched := rest, resp := some .ok }) ∧
  (∀ (s t : State) (w : Word) (rest : List Event), s.state ≠ .busy →
    s.sched = .access (.write 0x0000 4 w) :: rest → step s = .next t → t.ovr = false) ∧
  (∀ (s t : State) (rest : List Event), s.sched = .reset :: rest → step s = .next t → t.ovr = false)

/-- R57, R53: outside BUSY a write to limb j of `A`, `B` or `N` replaces that limb and no other, and nothing else; a
write to `K` replaces `K` and nothing else. -/
def Obligations.OperandWriteReplacesOneLimb : Prop :=
  (∀ (s : State) (r : DataReg) (j : Nat) (v : Word) (rest : List Event),
    Config.limbsWf s.limbs = true → s.state ≠ .busy → r = .a ∨ r = .b ∨ r = .n → j < s.limbs →
    s.sched = .access (.write (0x400 * (regIndex r + 1) + 4 * j) 4 v) :: rest →
      ∃ x : Nat,
        step s = .next { writeReg s r x with sched := rest, resp := some .ok } ∧
        x + readReg s r / 2 ^ (32 * j) % 2 ^ 32 * 2 ^ (32 * j) = readReg s r + v.toNat * 2 ^ (32 * j) ∧
        x / 2 ^ (32 * j) % 2 ^ 32 = v.toNat ∧
        ∀ i : Nat, i ≠ j → x / 2 ^ (32 * i) % 2 ^ 32 = readReg s r / 2 ^ (32 * i) % 2 ^ 32) ∧
  (∀ (s : State) (v : Word) (rest : List Event), s.state ≠ .busy → s.sched = .access (.write 0x0008 4 v) :: rest →
      step s = .next { s with k := v, sched := rest, resp := some .ok })

/-- R78: `LD R, v` takes L steps and leaves `R` exactly v, whatever it held before, and nothing else changed. -/
def Obligations.LoadScriptSetsTheWholeRegister : Prop :=
  ∀ (s : State) (r : DataReg) (v : Nat) (rest : List Event),
    Inv s → s.state ≠ .busy → r = .a ∨ r = .b ∨ r = .n → v < 2 ^ (32 * s.limbs) →
    s.sched = scriptLD s.limbs r v ++ rest →
      Sys2Proof.core.run s.limbs s = .next { writeReg s r v with sched := rest, resp := some .ok }

/-- R78, R53: `RD R` answers the limbs of `R` in order, least significant first, and the value they join to is the
register's. -/
def Obligations.ReadScriptReturnsTheRegister : Prop :=
  ∀ (s : State) (r : DataReg) (rest : List Event), Inv s → s.sched = scriptRD s.limbs r ++ rest →
    (∀ j : Nat, j < s.limbs → ∃ t : State, Sys2Proof.core.run (j + 1) s = .next t ∧
      t.resp = some (.data (limb (readReg s r) j)) ∧ ∀ q : DataReg, readReg t q = readReg s q) ∧
    joinLimbs ((List.range s.limbs).map (limb (readReg s r))) = readReg s r

/-- R78, R190: after `ISSUE m` of a command other than PRIMETEST, `WAIT` ends, having read a `STATUS` that shows DONE
or ERROR; that the core moves between two polls is the model's form of the fairness of R190 (assumption log 8, DESIGN
CHOICE). -/
def Obligations.IssueAndWaitCompletes : Prop :=
  ∀ (s : State) (m : Instr) (rest : List Event), s.state ≠ .busy → m ≠ .primetest →
    s.sched = scriptISSUE m ++ scriptWAIT ++ rest →
      ∃ t : State, Sys2Proof.core.run 4 s = .next t ∧ t.sched = rest ∧ (t.state = .done ∨ t.state = .error) ∧
        t.resp = some (.data (statusWord t)) ∧ t.cmd = encode m

/-! ### The arithmetic primitives (spec 00_scope.md) -/

/-- R12: bitlen(0) = 0, otherwise the n with 2^(n-1) ≤ v < 2^n; bit(v, i) = (v div 2^i) mod 2. -/
def Obligations.BitlenAndBit : Prop :=
  bitlen 0 = 0 ∧
  (∀ v n : Nat, 0 < v → (bitlen v = n ↔ 0 < n ∧ 2 ^ (n - 1) ≤ v ∧ v < 2 ^ n)) ∧
  ∀ v i : Nat, bit v i = v / 2 ^ i % 2

/-! ### MODMUL (spec 40_modmul.md) -/

/-- R90: the command word is 0x00000001; for N = 0 `MODMUL` raises InvalidArgument and writes nothing but STATUS; for
every N > 0, even or odd, and every A and B, it completes with RES = (A · B) mod N and nothing else written. -/
def Obligations.ModmulCommitsTheProduct : Prop :=
  encode .modmul = 0x00000001#32 ∧
  ∀ s : State,
    (s.n = 0 →
      exec .modmul s = .next { s with errcode := some .invalidArgument, state := .error, waiting := none }) ∧
    (s.n ≠ 0 →
      exec .modmul s = .next { s with res := s.a * s.b % s.n, state := .done, waiting := none })

/-! ### MODEXP (spec 41_modexp.md) -/

/-- R100: the command word is 0x00000002; for N = 0 `MODEXP` raises InvalidArgument and writes nothing but STATUS; for
every N > 0 and every A and B (B = 0 and 0^0 included) it completes with RES = A^B mod N and nothing else written. -/
def Obligations.ModexpCommitsThePower : Prop :=
  encode .modexp = 0x00000002#32 ∧
  ∀ s : State,
    (s.n = 0 →
      exec .modexp s = .next { s with errcode := some .invalidArgument, state := .error, waiting := none }) ∧
    (s.n ≠ 0 →
      exec .modexp s = .next { s with res := s.a ^ s.b % s.n, state := .done, waiting := none })

/-- R101: at the top of iteration I, SQ = a^(2^I) mod n and ACC = a^(b mod 2^I) mod n, and I counts the iterations. -/
def Obligations.ModexpLoopInvariant : Prop :=
  ∀ a b n count : Nat, 0 < n →
    modexpLoop b n count (modexpInit a n) =
      { sq := a ^ 2 ^ count % n, acc := a ^ (b % 2 ^ count) % n, i := count }

/-- R103: with bitlen(b) iterations the running result is a^b mod n, which is R103's last sentence ("at loop exit
ACC = a^(b mod 2^bitlen(b)) mod n = a^b mod n") and marked there as derived from R101; and any larger number of
iterations, such as a fixed W, gives the same. -/
def Obligations.ModexpFixedIterationCountAgrees : Prop :=
  ∀ a b n count : Nat, 0 < n → bitlen b ≤ count →
    (modexpLoop b n (bitlen b) (modexpInit a n)).acc = a ^ b % n ∧
    (modexpLoop b n count (modexpInit a n)).acc = (modexpLoop b n (bitlen b) (modexpInit a n)).acc

/-- R104 (the round trip of the source's §8): for well-formed keys, MODEXP with the private exponent undoes MODEXP
with the public one. -/
def Obligations.RsaRoundTrip : Prop :=
  ∀ (p q e d m : Nat) (s u : State), p.Prime → q.Prime → p ≠ q → e * d % ((p - 1) * (q - 1)) = 1 → m < p * q →
    s.a = m → s.b = e → s.n = p * q → u.b = d → u.n = p * q →
      ∃ t : State, exec .modexp s = .next t ∧
        (u.a = t.res → ∃ v : State, exec .modexp u = .next v ∧ v.res = m)

/-! ### EGCD (spec 42_egcd.md) -/

/-- R110, R111: the command word is 0x00000003; `EGCD` completes in every state; it stores the sign and magnitude of
exactly the triple of the recursive definition, and writes nothing else. -/
def Obligations.EgcdStoresTheRecursiveTriple : Prop :=
  encode .egcd = 0x00000003#32 ∧
  ∀ s : State, ∃ (x y : Int) (g : Nat), EgcdDefines s.a s.b x y g ∧
    exec .egcd s = .next { s with
      rx := x.natAbs, xneg := decide (x < 0), ry := y.natAbs, yneg := decide (y < 0), rg := g,
      state := .done, waiting := none }

/-- R114: after `EGCD`, with x and y the signed values of (RX, XNEG) and (RY, YNEG), A·x + B·y = RG = gcd(A, B).
The spec marks R114 as derived from R111 by induction on the recursion. -/
def Obligations.EgcdMeetsTheBezoutContract : Prop :=
  ∀ s : State, ∃ t : State, exec .egcd s = .next t ∧
    (s.a : Int) * (if t.xneg then -(t.rx : Int) else (t.rx : Int)) +
      (s.b : Int) * (if t.yneg then -(t.ry : Int) else (t.ry : Int)) = (t.rg : Int) ∧
    t.rg = Nat.gcd s.a s.b

/-- R113: g = gcd(a, b) ≤ max(a, b), |x| ≤ max(1, b) and |y| ≤ max(1, a), and when b ≠ 0 more sharply
|x| ≤ max(1, b div g) and |y| ≤ max(1, a div g); so both magnitudes fit W bits when the operands do. -/
def Obligations.EgcdCoefficientsFit : Prop :=
  ∀ (a b : Nat) (x y : Int) (g : Nat), EgcdDefines a b x y g →
    g ≤ max a b ∧ x.natAbs ≤ max 1 b ∧ y.natAbs ≤ max 1 a ∧
    (b ≠ 0 → x.natAbs ≤ max 1 (b / g) ∧ y.natAbs ≤ max 1 (a / g)) ∧
    ∀ W : Nat, 1 ≤ W → a < 2 ^ W → b < 2 ^ W → x.natAbs < 2 ^ W ∧ y.natAbs < 2 ^ W ∧ g < 2 ^ W

/-- R112: the forward recurrence returns the triple of the recursive definition, which R112 marks as derived from
R111, and its loop keeps a·S0 + b·T0 = R0 and a·S1 + b·T1 = R1. -/
def Obligations.ForwardEuclidAgreesWithTheRecursion : Prop :=
  ∀ a b : Nat,
    EgcdDefines a b (egcdForward a b).x (egcdForward a b).y (egcdForward a b).g ∧
    ∀ fuel : Nat,
      (a : Int) * (egcdLoop fuel (egcdInit a b)).s0 + (b : Int) * (egcdLoop fuel (egcdInit a b)).t0 =
        ((egcdLoop fuel (egcdInit a b)).r0 : Int) ∧
      (a : Int) * (egcdLoop fuel (egcdInit a b)).s1 + (b : Int) * (egcdLoop fuel (egcdInit a b)).t1 =
        ((egcdLoop fuel (egcdInit a b)).r1 : Int)

/-- R113, the forward form: the magnitudes of S0, S1 never exceed max(1, b) and those of T0, T1 never exceed
max(1, a), and at exit |S1| = b div g and |T1| = a div g when g ≠ 0. -/
def Obligations.ForwardEuclidRegistersStayInRange : Prop :=
  ∀ a b fuel : Nat,
    (egcdLoop fuel (egcdInit a b)).s0.natAbs ≤ max 1 b ∧ (egcdLoop fuel (egcdInit a b)).s1.natAbs ≤ max 1 b ∧
    (egcdLoop fuel (egcdInit a b)).t0.natAbs ≤ max 1 a ∧ (egcdLoop fuel (egcdInit a b)).t1.natAbs ≤ max 1 a ∧
    (Nat.gcd a b ≠ 0 → b ≤ fuel →
      (egcdLoop fuel (egcdInit a b)).s1.natAbs = b / Nat.gcd a b ∧
      (egcdLoop fuel (egcdInit a b)).t1.natAbs = a / Nat.gcd a b)

/-! ### MODINV (spec 43_modinv.md) -/

/-- R120: the command word is 0x00000004; for N = 0 `MODINV` raises InvalidArgument, whatever gcd(B, 0) is; for N > 0
and gcd(B, N) ≠ 1 it raises NotInvertible, whatever A is; otherwise it completes with RES = A · INV mod N, INV the
residue modulo N of the second coefficient of egcd(N, B). Nothing else is written. -/
def Obligations.ModinvCommitsTheQuotient : Prop :=
  encode .modinv = 0x00000004#32 ∧
  ∀ s : State,
    (s.n = 0 →
      exec .modinv s = .next { s with errcode := some .invalidArgument, state := .error, waiting := none }) ∧
    (s.n ≠ 0 → Nat.gcd s.b s.n ≠ 1 →
      exec .modinv s = .next { s with errcode := some .notInvertible, state := .error, waiting := none }) ∧
    (s.n ≠ 0 → Nat.gcd s.b s.n = 1 →
      ∃ (x y : Int) (inv : Nat), EgcdDefines s.n s.b x y 1 ∧ (inv : Int) = y % (s.n : Int) ∧
        exec .modinv s = .next { s with res := s.a * inv % s.n, state := .done, waiting := none })

/-- R122: for N ≥ 1 and gcd(B, N) = 1 the result is in [0, N) and (B · RES) mod N = A mod N; with A = 1 that is
(B · r) mod N = 1 mod N. The spec marks R122, its sentence for general A included, as derived from R120 and R114. -/
def Obligations.ModinvResultIsTheInverse : Prop :=
  ∀ s : State, 1 ≤ s.n → Nat.gcd s.b s.n = 1 →
    ∃ t : State, exec .modinv s = .next t ∧ t.state = .done ∧ t.res < s.n ∧ s.b * t.res % s.n = s.a % s.n ∧
      (s.a = 1 → s.b * t.res % s.n = 1 % s.n)

/-! ### PRIMETEST (spec 44_primetest.md) -/

/-- R130, R134: the command word is 0x00000005; for N < 2 `PRIMETEST` raises InvalidArgument, whatever K is, before
any random word is consumed; with N ≥ 2 and K = 0 the verdict is prime, for composites too, no random word is
consumed, and nothing else is written. -/
def Obligations.PrimetestChecksItsArgumentsFirst : Prop :=
  encode .primetest = 0x00000005#32 ∧
  ∀ s : State,
    (s.n < 2 →
      exec .primetest s = .next { s with errcode := some .invalidArgument, state := .error, waiting := none }) ∧
    (2 ≤ s.n → s.k = 0 →
      exec .primetest s = .next { s with verdict := true, state := .done, waiting := none })

/-- R131: `draw(n)` takes the low m bits of a word, m = bitlen(n - 1), and accepts a value exactly when it is in
[1, n - 1]; m is between 1 and W. -/
def Obligations.DrawMasksAndRejects : Prop :=
  ∀ n r m : Nat, 2 ≤ n → 2 ^ (m - 1) ≤ n - 1 → n - 1 < 2 ^ m →
    1 ≤ m ∧ (∀ W : Nat, n < 2 ^ W → m ≤ W) ∧
    ∀ c : Nat, witnessOf n r = some c ↔ c = r % 2 ^ m ∧ 1 ≤ c ∧ c ≤ n - 1

/-- R132: a trial passes exactly when w^(n-1) mod n = 1, for every n ≥ 2. -/
def Obligations.TrialPassesExactlyWhenFermatHolds : Prop :=
  ∀ n w : Nat, 2 ≤ n → (trialPasses n w = true ↔ w ^ (n - 1) % n = 1)

/-- R133, R130: the verdict as a function of the operands and the accepted witnesses (no request being outstanding,
K ≥ 1). When the words up to `r` bring the accepted witnesses to K, all of them passing, the verdict is prime; when
the witness `w` of word `r` is the first to fail, fewer than K having passed before it, the verdict is composite there
and then, and the remaining trials are not run. Either way exactly the words up to `r` are consumed and nothing else is
written. -/
def Obligations.PrimetestVerdictAndConsumption : Prop :=
  ∀ (s : State) (pre post : List Nat) (r w : Nat), 2 ≤ s.n → s.waiting = none →
    s.words = pre ++ r :: post → witnessOf s.n r = some w →
    (∀ v ∈ acceptedWitnesses s.n pre, Passes s.n v) →
      ((acceptedWitnesses s.n pre).length + 1 = s.k.toNat → Passes s.n w →
        exec .primetest s = .next { s with verdict := true, state := .done, waiting := none, words := post }) ∧
      ((acceptedWitnesses s.n pre).length < s.k.toNat → ¬ Passes s.n w →
        exec .primetest s = .next { s with verdict := false, state := .done, waiting := none, words := post })

/-- R138: a PRIMETEST whose source has answered with too few acceptable words, all passing, stays BUSY with its
request outstanding; with no further answer the core's move leaves it there, however often it moves; and whatever
happens next, it keeps waiting unless the source answers or reset is asserted: there is no timeout. -/
def Obligations.StarvedPrimetestStaysBusy : Prop :=
  (∀ s : State, 2 ≤ s.n → s.waiting = none → (acceptedWitnesses s.n s.words).length < s.k.toNat →
    (∀ w ∈ acceptedWitnesses s.n s.words, Passes s.n w) →
      exec .primetest s = .next { s with
        waiting := some (acceptedWitnesses s.n s.words).length, words := [] }) ∧
  (∀ (m t : Nat) (s : State), Inv s → s.waiting = some t → s.words = [] → s.sched = [] →
    Sys2Proof.core.run m s = .next s) ∧
  (∀ s t : State, Inv s → s.waiting ≠ none → s.words = [] → step s = .next t →
    (∀ rest, s.sched ≠ .reset :: rest) → (∀ r rest, s.sched ≠ .answer r :: rest) →
      t.state = .busy ∧ t.waiting = s.waiting ∧ t.words = [])

/-- R66, R32: the answer to an outstanding request is taken up where the command stood: running PRIMETEST on the
words `w₁`, starving, and running it again on the later words `w₂` is running it once on all of them. That a command
resumes from the field `waiting`, on words given in batches, is the model's form (assumption log 3, DESIGN CHOICE, and
12, DEDUCED). -/
def Obligations.PrimetestResumesWhereItWaited : Prop :=
  ∀ (s t : State) (w₁ w₂ : List Nat), s.state = .busy → s.words = w₁ → exec .primetest s = .next t →
    t.state = .busy →
      exec .primetest { t with words := w₂ } = exec .primetest { s with words := w₁ ++ w₂ }

/-- R135: a prime candidate is never reported composite, whatever K and the random words are. -/
def Obligations.PrimeIsNeverReportedComposite : Prop :=
  ∀ s t : State, s.n.Prime → s.state = .busy → exec .primetest s = .next t → t.state ≠ .busy →
    t.state = .done ∧ t.verdict = true

/-- R137: the witness 1 passes for every n ≥ 2; n - 1 passes for odd n ≥ 3 and fails for even n ≥ 4; a witness that
shares a factor with n fails; the passing witnesses of 4 and 15; every witness coprime to 561 passes, 320 of the 560,
and the other 240 fail. The spec marks all of R137 as derived from R132. -/
def Obligations.WitnessFacts : Prop :=
  (∀ n : Nat, 2 ≤ n → trialPasses n 1 = true) ∧
  (∀ n : Nat, 3 ≤ n → n % 2 = 1 → trialPasses n (n - 1) = true) ∧
  (∀ n : Nat, 4 ≤ n → n % 2 = 0 → trialPasses n (n - 1) = false) ∧
  (∀ n w : Nat, 2 ≤ n → Nat.gcd w n ≠ 1 → trialPasses n w = false) ∧
  (∀ w : Nat, 1 ≤ w → w ≤ 3 → (trialPasses 4 w = true ↔ w = 1)) ∧
  (∀ w : Nat, 1 ≤ w → w ≤ 14 → (trialPasses 15 w = true ↔ w = 1 ∨ w = 4 ∨ w = 11 ∨ w = 14)) ∧
  (∀ w : Nat, 1 ≤ w → w ≤ 560 → (trialPasses 561 w = true ↔ Nat.gcd w 561 = 1)) ∧
  ((List.range 561).filter (fun w => trialPasses 561 w)).length = 320

/-- A random word answers the outstanding request if there is one that has no answer, and is discarded otherwise; no
register of the block changes. R66 gives the request and its answer, and R180 the discarding after a reset. That every
word which arrives while a request is outstanding and unanswered answers it is the model's choice (assumption log 16,
DESIGN CHOICE), and that any other word is discarded its reading (assumption log 10, DEDUCED). -/
def Obligations.RandomAnswerGoesToTheOutstandingRequest : Prop :=
  ∀ (s : State) (r : Nat) (rest : List Event), s.sched = .answer r :: rest → r < 2 ^ (32 * s.limbs) →
    (s.waiting ≠ none → s.words = [] → step s = .next { s with sched := rest, words := [r] }) ∧
    (s.waiting = none ∨ s.words ≠ [] → step s = .next { s with sched := rest })

/-! ### Errors (spec 60_exceptions.md) -/

/-- R152: in a BUSY state whose `CMD` is not one of the five command words the core's move raises IllegalCommand:
ERRCODE and STATE are written and nothing else, and `CMD` keeps the word. -/
def Obligations.IllegalWordRaisesIllegalCommand : Prop :=
  ∀ (s : State) (rest : List Event), s.state = .busy → (∀ i : Instr, s.cmd ≠ encode i) → CoreTurn s rest →
    step s = .next { s with errcode := some .illegalCommand, state := .error, waiting := none, sched := rest }

/-- R155: when a step of the core ends the command in ERROR it writes ERRCODE and STATE and nothing else, and the
core is then at rest. -/
def Obligations.ErrorWritesOnlyStatus : Prop :=
  ∀ (s t : State) (rest : List Event), s.state = .busy → CoreTurn s rest → step s = .next t → t.state = .error →
    ∃ code : ErrCode,
      t = { s with errcode := some code, state := .error, waiting := none, sched := rest } ∧
      step { t with sched := [] } = .next { t with sched := [] }

/-- R157: an error needs no acknowledgement: from ERROR the next accept runs as from DONE; the two states that differ
in STATE and ERRCODE alone are the same after it. -/
def Obligations.ErrorDoesNotAffectTheNextCommand : Prop :=
  ∀ (s : State) (code : ErrCode) (w : Word) (rest : List Event), s.sched = .access (.write 0x0000 4 w) :: rest →
    step { s with state := .error, errcode := some code } = step { s with state := .done, errcode := none }

/-- R190: an accepted command other than PRIMETEST, legal or not, reaches DONE or ERROR at the core's next move,
whatever the operands. -/
def Obligations.DeterministicCommandsComplete : Prop :=
  ∀ (s : State) (rest : List Event), s.state = .busy → decode s.cmd ≠ .command .primetest → CoreTurn s rest →
    ∃ t : State, step s = .next t ∧ (t.state = .done ∨ t.state = .error)

/-! ### Reset (spec 70_reset_and_hazards.md, 10_state.md R37) -/

/-- R37: the architectural state after reset, for every operand width; `State.reset` is the machine of the width the
model names (assumption log 1, DESIGN CHOICE). -/
def Obligations.ResetRegisterValues : Prop :=
  State.reset = State.resetAt Config.resetLimbs ∧
  ∀ limbs : Nat, ∀ s : State, s = State.resetAt limbs →
    (∀ r : DataReg, readReg s r = 0) ∧ s.k = 0 ∧ s.cmd = 0 ∧ s.state = .idle ∧ s.errcode = none ∧ s.ovr = false ∧
    statusWord s = 0 ∧ s.verdict = false ∧ s.xneg = false ∧ s.yneg = false ∧ rflagsWord s = 0

/-- R180, R181: reset in any state, BUSY included, puts every architectural register to its reset value and abandons
the command: no request stays outstanding, a word that answers the abandoned request is discarded whether it came
before the reset or comes after it, and the source's other words are kept. -/
def Obligations.ResetAbandonsEverything : Prop :=
  ∀ (s : State) (rest : List Event), s.sched = .reset :: rest →
    ∃ t : State, step s = .next t ∧
      (∀ r : DataReg, readReg t r = 0) ∧ t.k = 0 ∧ t.cmd = 0 ∧ t.state = .idle ∧ t.errcode = none ∧
      t.ovr = false ∧ t.verdict = false ∧ t.xneg = false ∧ t.yneg = false ∧ t.waiting = none ∧
      t.limbs = s.limbs ∧ t.sched = rest ∧
      (s.waiting = none → t.words = s.words) ∧ (s.waiting ≠ none → t.words = s.words.drop 1) ∧
      ∀ (r : Nat) (later : List Event), rest = .answer r :: later → step t = .next { t with sched := later }

/-- R183: the first command may be issued straight after reset, for every operand width: with the reset operands
MODMUL, MODEXP, MODINV and PRIMETEST end in InvalidArgument and EGCD returns (1, 0, 0). The command is issued by
`withFetchWord`, the model's interface (assumption log 6, DESIGN CHOICE). -/
def Obligations.FirstCommandAfterReset : Prop :=
  ∀ (limbs : Nat) (i : Instr), ∃ t : State,
    step ((State.resetAt limbs).withFetchWord 32 (encode i).toNat) = .next t ∧
    (i ≠ .egcd → t.state = .error ∧ t.errcode = some .invalidArgument) ∧
    (i = .egcd → t.state = .done ∧ t.rx = 1 ∧ t.xneg = false ∧ t.ry = 0 ∧ t.yneg = false ∧ t.rg = 0)

/-! ### Waiting for a starved PRIMETEST (spec 70_reset_and_hazards.md R190) -/

/-- R190, R78: while a PRIMETEST is starved, a `WAIT` is ended by reset, wherever in the schedule the reset is listed
first of the inputs; the first answer listed is taken up and the polling goes on; and with no answer and no reset
listed the `WAIT` never returns, however long it polls: there is no timeout. That an input is taken between two polls,
ahead of the host's own listed accesses, is the model's choice (assumption log 8, DESIGN CHOICE). -/
def Obligations.StarvedWaitEndsOnlyByInput : Prop :=
  ∀ (s : State) (pre rest : List Event), s.state = .busy → s.waiting ≠ none → s.words = [] →
    (∀ e ∈ pre, e ≠ .reset ∧ ∀ r : Nat, e ≠ .answer r) →
      (s.sched = .wait :: (pre ++ .reset :: rest) →
        ∃ t : State, Sys2Proof.core.run 3 s = .next t ∧ t.state = .idle ∧ t.waiting = none ∧
          t.resp = some (.data 0) ∧ t.sched = pre ++ rest) ∧
      (∀ r : Nat, r < 2 ^ (32 * s.limbs) → s.sched = .wait :: (pre ++ .answer r :: rest) →
        Sys2Proof.core.run 2 s = .next { s with
          words := [r], sched := .wait :: (pre ++ rest), resp := some (.data (statusWord s)) }) ∧
      (Inv s → s.sched = .wait :: pre → ∀ m : Nat,
        ∃ t : State, Sys2Proof.core.run m s = .next t ∧ t.state = .busy ∧ t.waiting = s.waiting ∧ .wait ∈ t.sched)
end

