-- ==== Sys2Proof/Laws/Arith.lean ====
section
/-! SUPPORT. The specifications of the arithmetic helpers: bit length, the exponentiation loop, Euclid, the trial loop. -/

namespace Sys2Proof.Machine

open Sys2Proof

/-- The bit length is the library's size in bits. -/
theorem bitlen_eq_size (v : Nat) : bitlen v = Nat.size v := by
  unfold bitlen
  split
  · subst_vars; simp
  · rename_i h
    apply le_antisymm
    · have := (Nat.lt_size (m := v.log2) (n := v)).2 (Nat.log2_self_le h)
      omega
    · exact Nat.size_le.2 Nat.lt_log2_self

/-- A value is below two to its bit length. -/
theorem lt_two_pow_bitlen (v : Nat) : v < 2 ^ bitlen v := by
  rw [bitlen_eq_size]; exact Nat.lt_size_self v

/-- The bit length is at most n exactly when the value is below two to the n. -/
theorem bitlen_le_iff (v n : Nat) : bitlen v ≤ n ↔ v < 2 ^ n := by
  rw [bitlen_eq_size]; exact Nat.size_le

/-- The loop's last iteration comes off the end. -/
theorem modexpLoop_succ (b n c : Nat) (h : ModexpRegs) :
    modexpLoop b n (c + 1) h = modexpIter b n (modexpLoop b n c h) := by
  induction c generalizing h with
  | zero => rfl
  | succ c ih => rw [modexpLoop, ih]; rfl

/-- The engine's result is a residue. -/
theorem modexp_lt (a b n : Nat) (hn : 0 < n) : modexp a b n < n := by
  have : ∀ c h, h.acc < n → (modexpLoop b n c h).acc < n := by
    intro c
    induction c with
    | zero => exact fun h hh => hh
    | succ c ih =>
      intro h hh
      refine ih _ ?_
      simp only [modexpIter, mulmod]
      split
      · exact Nat.mod_lt _ hn
      · exact hh
  exact this _ _ (Nat.mod_lt _ hn)

/-- On enough fuel the recursion computes the triple of its definition. -/
theorem egcdFuel_defines (fuel a b : Nat) (h : b ≤ fuel) :
    EgcdDefines a b (egcdFuel fuel a b).x (egcdFuel fuel a b).y (egcdFuel fuel a b).g := by
  induction fuel generalizing a b with
  | zero => obtain rfl : b = 0 := by omega
            exact .base a
  | succ fuel ih =>
    unfold egcdFuel
    split
    · subst_vars; exact .base a
    · rename_i hb
      exact .recurse (Nat.pos_of_ne_zero hb)
        (ih b (a % b) (by have := Nat.mod_lt a (Nat.pos_of_ne_zero hb); omega))

/-- `egcd` computes the triple of the recursive definition. -/
theorem egcd_defines (a b : Nat) : EgcdDefines a b (egcd a b).x (egcd a b).y (egcd a b).g :=
  egcdFuel_defines b a b le_rfl

/-- The recursive definition determines its triple. -/
theorem egcdDefines_unique {a b : Nat} {x y x2 y2 : Int} {g g2 : Nat}
    (h : EgcdDefines a b x y g) (h2 : EgcdDefines a b x2 y2 g2) : x = x2 ∧ y = y2 ∧ g = g2 := by
  induction h generalizing x2 y2 g2 with
  | base a => cases h2 with
    | base => exact ⟨rfl, rfl, rfl⟩
    | recurse hb => omega
  | recurse hb h ih => cases h2 with
    | base => omega
    | recurse hb2 h2 => obtain ⟨rfl, rfl, rfl⟩ := ih h2; exact ⟨rfl, rfl, rfl⟩

/-- The third component is the greatest common divisor. -/
theorem egcdDefines_gcd {a b : Nat} {x y : Int} {g : Nat} (h : EgcdDefines a b x y g) : g = Nat.gcd a b := by
  induction h with
  | base a => simp
  | recurse hb h ih => rw [ih, Nat.gcd_comm, ← Nat.gcd_rec, Nat.gcd_comm]

/-- On enough fuel the forward loop ends with R1 = 0. -/
theorem egcdLoop_exit (fuel : Nat) (h : EgcdRegs) (hf : h.r1 ≤ fuel) : (egcdLoop fuel h).r1 = 0 := by
  induction fuel generalizing h with
  | zero => exact Nat.le_zero.1 hf
  | succ fuel ih =>
    rw [egcdLoop]; split
    · assumption
    · exact ih _ (by have := Nat.mod_lt h.r0 (Nat.pos_of_ne_zero ‹_›); simp only [egcdIter]; omega)

end Sys2Proof.Machine
end

