-- ==== Sys2Proof/Laws/Decode.lean ====
section
/-! SUPPORT. What decode does to a word, as numbers. -/

namespace Sys2Proof.Machine

open Sys2Proof

/-- The opcode field is the low byte. -/
theorem splitWord_opcode (w : Word) : (splitWord w).opcode.toNat = w.toNat % 256 := by
  simp [splitWord]

/-- The reserved bits are clear exactly below 0x100. -/
theorem splitWord_rsvd (w : Word) : (splitWord w).rsvdClear = true ↔ w.toNat < 256 := by
  simp only [splitWord, FormatC.rsvdClear, beq_iff_eq, ← BitVec.toNat_inj, BitVec.extractLsb'_toNat]
  have := w.isLt
  simp [Nat.shiftRight_eq_div_pow]
  omega

/-- Decode as a case analysis of the word as a number. -/
theorem decode_toNat (w : Word) : decode w = (if w.toNat < 256 then
    (match w.toNat with
    | 1 => .command .modmul
    | 2 => .command .modexp
    | 3 => .command .egcd
    | 4 => .command .modinv
    | 5 => .command .primetest
    | _ => .illegal .reservedOpcode) else .illegal .reservedBits) := by
  unfold decode decodeFields
  by_cases h : w.toNat < 256
  · rw [if_pos ((splitWord_rsvd w).2 h), if_pos h, splitWord_opcode, Nat.mod_eq_of_lt h] <;> rfl
  · rw [if_neg (fun h' => h ((splitWord_rsvd w).1 h')), if_neg h]

/-- Decoding a command word gives its command. -/
theorem decode_encode (i : Instr) : decode (encode i) = .command i := by cases i <;> decide

end Sys2Proof.Machine
end

