-- ==== Sys2Proof/Laws/State.lean ====
section
/-! SUPPORT. One lemma per field per named update, true by rfl, so that no proof unfolds a record update. -/

namespace Sys2Proof.Machine

/-! ### `commit` -/

@[simp] theorem commit_a (s : State) : (commit s).a = s.a := rfl
@[simp] theorem commit_b (s : State) : (commit s).b = s.b := rfl
@[simp] theorem commit_n (s : State) : (commit s).n = s.n := rfl
@[simp] theorem commit_res (s : State) : (commit s).res = s.res := rfl
@[simp] theorem commit_rx (s : State) : (commit s).rx = s.rx := rfl
@[simp] theorem commit_ry (s : State) : (commit s).ry = s.ry := rfl
@[simp] theorem commit_rg (s : State) : (commit s).rg = s.rg := rfl
@[simp] theorem commit_k (s : State) : (commit s).k = s.k := rfl
@[simp] theorem commit_cmd (s : State) : (commit s).cmd = s.cmd := rfl
@[simp] theorem commit_state (s : State) : (commit s).state = .done := rfl
@[simp] theorem commit_errcode (s : State) : (commit s).errcode = s.errcode := rfl
@[simp] theorem commit_ovr (s : State) : (commit s).ovr = s.ovr := rfl
@[simp] theorem commit_verdict (s : State) : (commit s).verdict = s.verdict := rfl
@[simp] theorem commit_xneg (s : State) : (commit s).xneg = s.xneg := rfl
@[simp] theorem commit_yneg (s : State) : (commit s).yneg = s.yneg := rfl
@[simp] theorem commit_waiting (s : State) : (commit s).waiting = none := rfl
@[simp] theorem commit_limbs (s : State) : (commit s).limbs = s.limbs := rfl
@[simp] theorem commit_words (s : State) : (commit s).words = s.words := rfl
@[simp] theorem commit_sched (s : State) : (commit s).sched = s.sched := rfl
@[simp] theorem commit_resp (s : State) : (commit s).resp = s.resp := rfl

/-! ### `accept` -/

@[simp] theorem accept_a (w : Word) (s : State) : (accept w s).a = s.a := rfl
@[simp] theorem accept_b (w : Word) (s : State) : (accept w s).b = s.b := rfl
@[simp] theorem accept_n (w : Word) (s : State) : (accept w s).n = s.n := rfl
@[simp] theorem accept_res (w : Word) (s : State) : (accept w s).res = s.res := rfl
@[simp] theorem accept_rx (w : Word) (s : State) : (accept w s).rx = s.rx := rfl
@[simp] theorem accept_ry (w : Word) (s : State) : (accept w s).ry = s.ry := rfl
@[simp] theorem accept_rg (w : Word) (s : State) : (accept w s).rg = s.rg := rfl
@[simp] theorem accept_k (w : Word) (s : State) : (accept w s).k = s.k := rfl
@[simp] theorem accept_cmd (w : Word) (s : State) : (accept w s).cmd = w := rfl
@[simp] theorem accept_state (w : Word) (s : State) : (accept w s).state = .busy := rfl
@[simp] theorem accept_errcode (w : Word) (s : State) : (accept w s).errcode = none := rfl
@[simp] theorem accept_ovr (w : Word) (s : State) : (accept w s).ovr = false := rfl
@[simp] theorem accept_verdict (w : Word) (s : State) : (accept w s).verdict = s.verdict := rfl
@[simp] theorem accept_xneg (w : Word) (s : State) : (accept w s).xneg = s.xneg := rfl
@[simp] theorem accept_yneg (w : Word) (s : State) : (accept w s).yneg = s.yneg := rfl
@[simp] theorem accept_waiting (w : Word) (s : State) : (accept w s).waiting = none := rfl
@[simp] theorem accept_limbs (w : Word) (s : State) : (accept w s).limbs = s.limbs := rfl
@[simp] theorem accept_words (w : Word) (s : State) : (accept w s).words = s.words := rfl
@[simp] theorem accept_sched (w : Word) (s : State) : (accept w s).sched = s.sched := rfl
@[simp] theorem accept_resp (w : Word) (s : State) : (accept w s).resp = s.resp := rfl

/-! ### `storeBezout` -/

@[simp] theorem storeBezout_a (z : Bezout) (s : State) : (storeBezout z s).a = s.a := rfl
@[simp] theorem storeBezout_b (z : Bezout) (s : State) : (storeBezout z s).b = s.b := rfl
@[simp] theorem storeBezout_n (z : Bezout) (s : State) : (storeBezout z s).n = s.n := rfl
@[simp] theorem storeBezout_res (z : Bezout) (s : State) : (storeBezout z s).res = s.res := rfl
@[simp] theorem storeBezout_rx (z : Bezout) (s : State) : (storeBezout z s).rx = z.x.natAbs := rfl
@[simp] theorem storeBezout_ry (z : Bezout) (s : State) : (storeBezout z s).ry = z.y.natAbs := rfl
@[simp] theorem storeBezout_rg (z : Bezout) (s : State) : (storeBezout z s).rg = z.g := rfl
@[simp] theorem storeBezout_k (z : Bezout) (s : State) : (storeBezout z s).k = s.k := rfl
@[simp] theorem storeBezout_cmd (z : Bezout) (s : State) : (storeBezout z s).cmd = s.cmd := rfl
@[simp] theorem storeBezout_state (z : Bezout) (s : State) : (storeBezout z s).state = s.state := rfl
@[simp] theorem storeBezout_errcode (z : Bezout) (s : State) : (storeBezout z s).errcode = s.errcode := rfl
@[simp] theorem storeBezout_ovr (z : Bezout) (s : State) : (storeBezout z s).ovr = s.ovr := rfl
@[simp] theorem storeBezout_verdict (z : Bezout) (s : State) : (storeBezout z s).verdict = s.verdict := rfl
@[simp] theorem storeBezout_xneg (z : Bezout) (s : State) : (storeBezout z s).xneg = signFlag z.x := rfl
@[simp] theorem storeBezout_yneg (z : Bezout) (s : State) : (storeBezout z s).yneg = signFlag z.y := rfl
@[simp] theorem storeBezout_waiting (z : Bezout) (s : State) : (storeBezout z s).waiting = s.waiting := rfl
@[simp] theorem storeBezout_limbs (z : Bezout) (s : State) : (storeBezout z s).limbs = s.limbs := rfl
@[simp] theorem storeBezout_words (z : Bezout) (s : State) : (storeBezout z s).words = s.words := rfl
@[simp] theorem storeBezout_sched (z : Bezout) (s : State) : (storeBezout z s).sched = s.sched := rfl
@[simp] theorem storeBezout_resp (z : Bezout) (s : State) : (storeBezout z s).resp = s.resp := rfl

/-! ### `resetBlock` -/

@[simp] theorem resetBlock_a (s : State) : (resetBlock s).a = 0 := rfl
@[simp] theorem resetBlock_b (s : State) : (resetBlock s).b = 0 := rfl
@[simp] theorem resetBlock_n (s : State) : (resetBlock s).n = 0 := rfl
@[simp] theorem resetBlock_res (s : State) : (resetBlock s).res = 0 := rfl
@[simp] theorem resetBlock_rx (s : State) : (resetBlock s).rx = 0 := rfl
@[simp] theorem resetBlock_ry (s : State) : (resetBlock s).ry = 0 := rfl
@[simp] theorem resetBlock_rg (s : State) : (resetBlock s).rg = 0 := rfl
@[simp] theorem resetBlock_k (s : State) : (resetBlock s).k = 0 := rfl
@[simp] theorem resetBlock_cmd (s : State) : (resetBlock s).cmd = 0 := rfl
@[simp] theorem resetBlock_state (s : State) : (resetBlock s).state = .idle := rfl
@[simp] theorem resetBlock_errcode (s : State) : (resetBlock s).errcode = none := rfl
@[simp] theorem resetBlock_ovr (s : State) : (resetBlock s).ovr = false := rfl
@[simp] theorem resetBlock_verdict (s : State) : (resetBlock s).verdict = false := rfl
@[simp] theorem resetBlock_xneg (s : State) : (resetBlock s).xneg = false := rfl
@[simp] theorem resetBlock_yneg (s : State) : (resetBlock s).yneg = false := rfl
@[simp] theorem resetBlock_waiting (s : State) : (resetBlock s).waiting = none := rfl
@[simp] theorem resetBlock_limbs (s : State) : (resetBlock s).limbs = s.limbs := rfl
@[simp] theorem resetBlock_words (s : State) : (resetBlock s).words = wordsAfterReset s := rfl
@[simp] theorem resetBlock_sched (s : State) : (resetBlock s).sched = s.sched := rfl
@[simp] theorem resetBlock_resp (s : State) : (resetBlock s).resp = s.resp := rfl

/-! ### `resetAt` -/

@[simp] theorem resetAt_a (limbs : Nat) : (State.resetAt limbs).a = 0 := rfl
@[simp] theorem resetAt_b (limbs : Nat) : (State.resetAt limbs).b = 0 := rfl
@[simp] theorem resetAt_n (limbs : Nat) : (State.resetAt limbs).n = 0 := rfl
@[simp] theorem resetAt_res (limbs : Nat) : (State.resetAt limbs).res = 0 := rfl
@[simp] theorem resetAt_rx (limbs : Nat) : (State.resetAt limbs).rx = 0 := rfl
@[simp] theorem resetAt_ry (limbs : Nat) : (State.resetAt limbs).ry = 0 := rfl
@[simp] theorem resetAt_rg (limbs : Nat) : (State.resetAt limbs).rg = 0 := rfl
@[simp] theorem resetAt_k (limbs : Nat) : (State.resetAt limbs).k = 0 := rfl
@[simp] theorem resetAt_cmd (limbs : Nat) : (State.resetAt limbs).cmd = 0 := rfl
@[simp] theorem resetAt_state (limbs : Nat) : (State.resetAt limbs).state = .idle := rfl
@[simp] theorem resetAt_errcode (limbs : Nat) : (State.resetAt limbs).errcode = none := rfl
@[simp] theorem resetAt_ovr (limbs : Nat) : (State.resetAt limbs).ovr = false := rfl
@[simp] theorem resetAt_verdict (limbs : Nat) : (State.resetAt limbs).verdict = false := rfl
@[simp] theorem resetAt_xneg (limbs : Nat) : (State.resetAt limbs).xneg = false := rfl
@[simp] theorem resetAt_yneg (limbs : Nat) : (State.resetAt limbs).yneg = false := rfl
@[simp] theorem resetAt_waiting (limbs : Nat) : (State.resetAt limbs).waiting = none := rfl
@[simp] theorem resetAt_limbs (limbs : Nat) : (State.resetAt limbs).limbs = limbs := rfl
@[simp] theorem resetAt_words (limbs : Nat) : (State.resetAt limbs).words = [] := rfl
@[simp] theorem resetAt_sched (limbs : Nat) : (State.resetAt limbs).sched = [] := rfl
@[simp] theorem resetAt_resp (limbs : Nat) : (State.resetAt limbs).resp = none := rfl

/-! ### `writeReg`: the control registers and the model's own fields -/

@[simp] theorem writeReg_k (s : State) (r : DataReg) (v : Nat) : (writeReg s r v).k = s.k := by
  cases r <;> rfl
@[simp] theorem writeReg_cmd (s : State) (r : DataReg) (v : Nat) : (writeReg s r v).cmd = s.cmd := by
  cases r <;> rfl
@[simp] theorem writeReg_state (s : State) (r : DataReg) (v : Nat) : (writeReg s r v).state = s.state := by
  cases r <;> rfl
@[simp] theorem writeReg_errcode (s : State) (r : DataReg) (v : Nat) : (writeReg s r v).errcode = s.errcode := by
  cases r <;> rfl
@[simp] theorem writeReg_ovr (s : State) (r : DataReg) (v : Nat) : (writeReg s r v).ovr = s.ovr := by
  cases r <;> rfl
@[simp] theorem writeReg_verdict (s : State) (r : DataReg) (v : Nat) : (writeReg s r v).verdict = s.verdict := by
  cases r <;> rfl
@[simp] theorem writeReg_xneg (s : State) (r : DataReg) (v : Nat) : (writeReg s r v).xneg = s.xneg := by
  cases r <;> rfl
@[simp] theorem writeReg_yneg (s : State) (r : DataReg) (v : Nat) : (writeReg s r v).yneg = s.yneg := by
  cases r <;> rfl
@[simp] theorem writeReg_waiting (s : State) (r : DataReg) (v : Nat) : (writeReg s r v).waiting = s.waiting := by
  cases r <;> rfl
@[simp] theorem writeReg_limbs (s : State) (r : DataReg) (v : Nat) : (writeReg s r v).limbs = s.limbs := by
  cases r <;> rfl
@[simp] theorem writeReg_words (s : State) (r : DataReg) (v : Nat) : (writeReg s r v).words = s.words := by
  cases r <;> rfl
@[simp] theorem writeReg_sched (s : State) (r : DataReg) (v : Nat) : (writeReg s r v).sched = s.sched := by
  cases r <;> rfl
@[simp] theorem writeReg_resp (s : State) (r : DataReg) (v : Nat) : (writeReg s r v).resp = s.resp := by
  cases r <;> rfl

/-! ### `writeReg` and `readReg` -/

@[simp] theorem readReg_writeReg_self (s : State) (r : DataReg) (v : Nat) : readReg (writeReg s r v) r = v := by
  cases r <;> rfl

theorem readReg_writeReg_ne (s : State) {r q : DataReg} (v : Nat) (h : q ≠ r) :
    readReg (writeReg s r v) q = readReg s q := by
  cases r <;> cases q <;> first | rfl | exact absurd rfl h

@[simp] theorem writeReg_readReg (s : State) (r : DataReg) : writeReg s r (readReg s r) = s := by
  cases r <;> rfl

@[simp] theorem writeReg_writeReg (s : State) (r : DataReg) (v w : Nat) :
    writeReg (writeReg s r v) r w = writeReg s r w := by
  cases r <;> rfl

end Sys2Proof.Machine
end

