-- ==== Sys2Proof/Laws/Exec.lean ====
section
/-! SUPPORT. What a command can do, said once: it raises, commits a result, or (PRIMETEST alone) goes on waiting. -/

namespace Sys2Proof.Machine

open Sys2Proof

/-- Every command answers a next state. -/
theorem exec_next (i : Instr) (s : State) : ∃ t, exec i s = .next t := by
  cases i <;> simp only [exec, execModmul, execModexp, execEgcd, execModinv, execPrimetest, raise] <;>
    (repeat' split) <;> exact ⟨_, rfl⟩

/-- The four ways a command can end. -/
theorem exec_cases {i : Instr} {s t : State} (h : exec i s = .next t) :
    (∃ c ∈ raisesOf i, t = { s with errcode := some c, state := .error, waiting := none }) ∨
    (∃ v < s.n, (i = .modmul ∨ i = .modexp ∨ i = .modinv) ∧ t = commit { s with res := v }) ∨
    (i = .egcd ∧ t = commit (storeBezout (egcd s.a s.b) s)) ∨
    (i = .primetest ∧ 2 ≤ s.n ∧ t = endTrials s (runTrials s.n s.k.toNat (s.waiting.getD 0) s.words)) := by
  cases i with
  | modmul =>
    simp only [exec, execModmul, raise] at h
    split at h <;> cases h
    · exact .inl ⟨_, by simp [raisesOf], rfl⟩
    · exact .inr (.inl ⟨_, Nat.mod_lt _ (by omega), .inl rfl, rfl⟩)
  | modexp =>
    simp only [exec, execModexp, raise] at h
    split at h <;> cases h
    · exact .inl ⟨_, by simp [raisesOf], rfl⟩
    · exact .inr (.inl ⟨_, modexp_lt _ _ _ (by omega), .inr (.inl rfl), rfl⟩)
  | egcd =>
    cases h
    exact .inr (.inr (.inl ⟨rfl, rfl⟩))
  | modinv =>
    simp only [exec, execModinv, raise] at h
    split at h
    · cases h; exact .inl ⟨_, by simp [raisesOf], rfl⟩
    · split at h <;> cases h
      · exact .inr (.inl ⟨_, Nat.mod_lt _ (by omega), .inr (.inr rfl), rfl⟩)
      · exact .inl ⟨_, by simp [raisesOf], rfl⟩
  | primetest =>
    simp only [exec, execPrimetest, raise] at h
    split at h <;> cases h
    · exact .inl ⟨_, by simp [raisesOf], rfl⟩
    · exact .inr (.inr (.inr ⟨rfl, by omega, rfl⟩))

/-- A run of trials ends in a verdict, a suffix of the words being left, or starved with a trial still to run. -/
theorem runTrials_cases (n k t : Nat) (ws : List Nat) :
    (∃ v rest, runTrials n k t ws = .verdict v rest ∧ ∃ pre, ws = pre ++ rest) ∨
    (∃ u, runTrials n k t ws = .starved u ∧ t ≤ u ∧ u < k) := by
  induction ws generalizing t with
  | nil =>
    unfold runTrials; split
    · exact .inl ⟨_, _, rfl, [], rfl⟩
    · exact .inr ⟨_, rfl, le_rfl, by omega⟩
  | cons r rest ih =>
    unfold runTrials; split
    · exact .inl ⟨_, _, rfl, [], rfl⟩
    · split
      · rcases ih t with ⟨v, r', h, pre, hp⟩ | h
        · exact .inl ⟨v, r', h, r :: pre, by rw [hp]; rfl⟩
        · exact .inr h
      · split
        · rcases ih (t+1) with ⟨v, r', h, pre, hp⟩ | ⟨u, h, h1, h2⟩
          · exact .inl ⟨v, r', h, r :: pre, by rw [hp]; rfl⟩
          · exact .inr ⟨u, h, by omega, h2⟩
        · exact .inl ⟨_, _, rfl, [r], rfl⟩

/-- With no word and a trial to run, the run is starved. -/
theorem runTrials_nil (n k t : Nat) (h : t < k) : runTrials n k t [] = .starved t := by
  unfold runTrials; rw [if_neg (by omega)]

/-- The STATE a command leaves. -/
theorem exec_state {i : Instr} {s t : State} (h : exec i s = .next t) :
   t.state = .done ∨ t.state = .error ∨ (i = .primetest ∧ t.state = s.state) := by
  rcases exec_cases h with ⟨c, _, rfl⟩ | ⟨v, _, _, rfl⟩ | ⟨_, rfl⟩ | ⟨hp, _, rfl⟩
  · simp
  · simp
  · simp
  · rcases runTrials_cases s.n s.k.toNat (s.waiting.getD 0) s.words with ⟨v, r, h, _⟩ | ⟨u, h, _⟩ <;>
      rw [h] <;> simp [endTrials, hp]

end Sys2Proof.Machine
end

