-- ==== Sys2Proof/Laws/PerInstr.lean ====
section
/-! SUPPORT. One lemma per command for the statements about all of them (LAWS.json). -/

namespace Sys2Proof.Laws.RoundTrip

/-- A command is well formed, its word decodes to it, and its mnemonic assembles to it (spec 30_encoding.md R71, R77,
R80). -/
def Statement (i : Instr) : Prop :=
  i.wf = true ∧ decode (encode i) = .command i ∧ ofMnemonic i.mnemonic = some i

theorem modmul : Statement .modmul := by refine ⟨?_, ?_, ?_⟩ <;> decide

theorem modexp : Statement .modexp := by refine ⟨?_, ?_, ?_⟩ <;> decide

theorem egcd : Statement .egcd := by refine ⟨?_, ?_, ?_⟩ <;> decide

theorem modinv : Statement .modinv := by refine ⟨?_, ?_, ?_⟩ <;> decide

theorem primetest : Statement .primetest := by refine ⟨?_, ?_, ?_⟩ <;> decide

end Sys2Proof.Laws.RoundTrip
end

