-- ==== Sys2Proof/Laws/Window.lean ====
section
/-! SUPPORT. The window map and its accesses, and limbs as numbers. -/

namespace Sys2Proof.Machine

open Sys2Proof

/-- The limb counts of spec 00_scope.md R7. -/
theorem limbsWf_iff (L : Nat) : Config.limbsWf L = true ↔ 1 ≤ L ∧ L ≤ 256 := by
  unfold Config.limbsWf Config.maxLimbs; rw [Bool.and_eq_true, decide_eq_true_iff, decide_eq_true_iff]

/-- The four control registers. -/
theorem locate_control (L : Nat) : locate L 0 = some .cmd ∧ locate L 4 = some .status ∧ locate L 8 = some .k ∧ locate L 0xC = some .rflags := by
  simp [locate]

/-- Index and register agree. -/
theorem regOfIndex_regIndex (r : DataReg) : regOfIndex (regIndex r) = some r := by cases r <;> rfl

/-- There are seven indexes. -/
theorem regIndex_lt (r : DataReg) : regIndex r < 7 := by cases r <;> decide

/-- Limb j of a register is where the table says. -/
theorem locate_bank {L j : Nat} (r : DataReg) (hL : L ≤ 256) (hj : j < L) :
    locate L (0x400 * (regIndex r + 1) + 4 * j) = some (.limbOf r j) := by
  have h1 : (0x400 * (regIndex r + 1) + 4 * j) % 0x400 / 4 = j := by omega
  have h2 : (0x400 * (regIndex r + 1) + 4 * j) / 0x400 - 1 = regIndex r := by omega
  unfold locate
  rw [if_neg (by omega), if_neg (by omega), if_neg (by omega), if_neg (by omega), if_neg (by omega), if_neg (by omega),
    h1, h2, if_pos hj, regOfIndex_regIndex]; rfl

/-- What is mapped at an offset fixes the offset. -/
theorem locate_some {L off : Nat} {loc : Location} (h : locate L off = some loc) :
    (loc = .cmd ∧ off = 0) ∨ (loc = .status ∧ off = 4) ∨ (loc = .k ∧ off = 8) ∨ (loc = .rflags ∧ off = 0xC) ∨
    (∃ r j, loc = .limbOf r j ∧ j < L ∧ off = 0x400 * (regIndex r + 1) + 4 * j) := by
  unfold locate at h
  split_ifs at h with h0 h1 h2 h3 h4 h5 h6
  · cases h; simp [h1]
  · cases h; simp [h2]
  · cases h; simp [h3]
  · cases h; simp [h4]
  · obtain ⟨r, hr, rfl⟩ := Option.map_eq_some_iff.1 h
    have : regIndex r = off / 0x400 - 1 := by
      generalize off / 0x400 - 1 = m at hr
      unfold regOfIndex at hr
      split at hr <;> cases hr <;> rfl
    exact .inr (.inr (.inr (.inr ⟨r, _, rfl, h6, by omega⟩)))

/-- `CMD` is mapped at offset 0 alone. -/
theorem locate_cmd {L off : Nat} (h : locate L off = some .cmd) : off = 0 := by
  unfold locate at h
  split_ifs at h <;> simp_all

/-- `locate` maps nothing exactly where the table of the spec maps nothing. -/
theorem locate_none_iff (L off : Nat) (hL : L ≤ 256) : locate L off = none ↔ (off % 4 ≠ 0 ∨ ¬ Mapped L off) := by
  constructor
  · intro h
    by_contra hc
    push Not at hc
    obtain ⟨_, hm⟩ := hc
    have hc := locate_control L
    rcases hm with rfl | rfl | rfl | rfl | ⟨b, j, hb, hj, rfl⟩
    · rw [hc.1] at h; cases h
    · rw [hc.2.1] at h; cases h
    · rw [hc.2.2.1] at h; cases h
    · rw [hc.2.2.2] at h; cases h
    · obtain ⟨r, rfl⟩ : ∃ r, regIndex r = b := by
        interval_cases b
        exacts [⟨.a, rfl⟩, ⟨.b, rfl⟩, ⟨.n, rfl⟩, ⟨.res, rfl⟩, ⟨.rx, rfl⟩, ⟨.ry, rfl⟩, ⟨.rg, rfl⟩]
      rw [locate_bank r hL hj] at h; cases h
  · intro h
    rcases hl : locate L off with _ | loc
    · rfl
    · exfalso
      rcases locate_some hl with ⟨_, rfl⟩ | ⟨_, rfl⟩ | ⟨_, rfl⟩ | ⟨_, rfl⟩ | ⟨r, j, _, hj, rfl⟩
      · exact h.elim (fun h => h rfl) (fun h => h (.inl rfl))
      · exact h.elim (fun h => h rfl) (fun h => h (.inr (.inl rfl)))
      · exact h.elim (fun h => h rfl) (fun h => h (.inr (.inr (.inl rfl))))
      · exact h.elim (fun h => h rfl) (fun h => h (.inr (.inr (.inr (.inl rfl)))))
      · exact h.elim (fun h => h (by omega)) (fun h => h (.inr (.inr (.inr (.inr ⟨_, j, regIndex_lt r, hj, rfl⟩)))))

/-- The writable locations are those the table of the spec marks read-write. -/
theorem writable_iff (L off : Nat) (hL : L ≤ 256) : (∃ loc, locate L off = some loc ∧ writable loc = true) ↔ MappedWritable L off := by
  have hc := locate_control L
  constructor
  · rintro ⟨loc, hl, hw⟩
    rcases locate_some hl with ⟨rfl, rfl⟩ | ⟨rfl, rfl⟩ | ⟨rfl, rfl⟩ | ⟨rfl, rfl⟩ | ⟨r, j, rfl, hj, rfl⟩
    · exact .inl rfl
    · cases hw
    · exact .inr (.inl rfl)
    · cases hw
    · refine .inr (.inr ⟨_, j, ?_, hj, rfl⟩)
      cases r <;> first | decide | cases hw
  · rintro (rfl | rfl | ⟨b, j, hb, hj, rfl⟩)
    · exact ⟨_, hc.1, rfl⟩
    · exact ⟨_, hc.2.2.1, rfl⟩
    · interval_cases b
      · exact ⟨_, locate_bank .a hL hj, rfl⟩
      · exact ⟨_, locate_bank .b hL hj, rfl⟩
      · exact ⟨_, locate_bank .n hL hj, rfl⟩

/-- A read of a mapped word. -/
theorem busRead_some {off : Nat} {s : State} {loc : Location} (h : locate s.limbs off = some loc) :
    busRead off 4 s = { s with resp := some (.data (readLocation s loc)) } := by
  unfold busRead; rw [if_pos rfl, h]

/-- A refused read. -/
theorem busRead_none {off size : Nat} {s : State} (h : size ≠ 4 ∨ locate s.limbs off = none) :
    busRead off size s = { s with resp := some .error } := by
  unfold busRead
  by_cases h4 : size = 4
  · rw [if_pos h4, h.resolve_left (fun h => h h4)]
  · rw [if_neg h4]

/-- A read writes the response alone. -/
theorem busRead_cases (off size : Nat) (s : State) : ∃ r, busRead off size s = { s with resp := some r } := by
  unfold busRead; split <;> exact ⟨_, rfl⟩

/-- A refused write. -/
theorem busWrite_refused {off size : Nat} {v : Word} {s : State}
    (h : size ≠ 4 ∨ ∀ loc, locate s.limbs off = some loc → writable loc = false) :
    busWrite off size v s = { s with resp := some .error } := by
  unfold busWrite
  by_cases h4 : size = 4
  · rw [if_pos h4]
    have h := h.resolve_left (fun h => h h4)
    rcases hl : locate s.limbs off with _ | loc
    · rfl
    · simp [h loc hl]
  · rw [if_neg h4]

/-- A dropped write. -/
theorem busWrite_dropped {off : Nat} {v : Word} {s : State} {loc : Location} (h : locate s.limbs off = some loc)
    (hw : writable loc = true) (hb : s.state = .busy) :
    busWrite off 4 v s = { s with ovr := true, resp := some .ok } := by
  unfold busWrite; rw [if_pos rfl, h]; simp [hw, hb]

/-- A write that takes effect. -/
theorem busWrite_done {off : Nat} {v : Word} {s : State} {loc : Location} (h : locate s.limbs off = some loc)
    (hw : writable loc = true) (hb : s.state ≠ .busy) :
    busWrite off 4 v s = { writeLocation s v loc with resp := some .ok } := by
  unfold busWrite; rw [if_pos rfl, h]; simp [hw, hb]

/-- A write is refused, dropped, or done. -/
theorem busWrite_cases (off size : Nat) (v : Word) (s : State) :
    busWrite off size v s = { s with resp := some .error } ∨
    (s.state = .busy ∧ busWrite off size v s = { s with ovr := true, resp := some .ok }) ∨
    (s.state ≠ .busy ∧ size = 4 ∧ ∃ loc, locate s.limbs off = some loc ∧ writable loc = true ∧
      busWrite off size v s = { writeLocation s v loc with resp := some .ok }) := by
  unfold busWrite
  split
  · rename_i loc hl
    split
    · rename_i hw
      split
      · exact .inr (.inl ⟨‹_›, rfl⟩)
      · refine .inr (.inr ⟨‹_›, ?_⟩)
        by_cases h4 : size = 4
        · rw [if_pos h4] at hl; exact ⟨h4, loc, hl, hw, rfl⟩
        · rw [if_neg h4] at hl; cases hl
    · exact .inl rfl
  · exact .inl rfl

/-- A limb as a number. -/
theorem limb_toNat (x j : Nat) : (limb x j).toNat = x / 2 ^ (32 * j) % 2 ^ 32 := by simp [limb]

/-- A limb as a slice of the value. -/
theorem limb_eq (x j : Nat) : limb x j = BitVec.ofNat 32 (x / 2 ^ (32 * j) % 2 ^ 32) := by
  unfold limb; apply BitVec.eq_of_toNat_eq; simp

/-- A limb in its place is at most the value. -/
theorem limb_mul_le (x j : Nat) : (limb x j).toNat * 2 ^ (32 * j) ≤ x := by
  rw [limb_toNat]
  calc _ ≤ x / 2 ^ (32 * j) * 2 ^ (32*j) := Nat.mul_le_mul_right _ (Nat.mod_le _ _)
    _ ≤ x := Nat.div_mul_le_self _ _

/-- Replacing a limb keeps what is below and what is above it. -/
theorem setLimb_split (x j : Nat) (v : Word) :
    setLimb x j v = x % 2 ^ (32 * j) + 2 ^ (32*j) * (v.toNat + 2 ^ 32 * (x / 2 ^ (32 * j) / 2 ^ 32)) := by
  have h1 := Nat.div_add_mod x (2 ^ (32 * j))
  have h2 := Nat.div_add_mod (x / 2 ^ (32 * j)) (2 ^ 32)
  have h3 := limb_mul_le x j
  have h4 := limb_toNat x j
  unfold setLimb
  rw [← h4] at h2
  generalize (limb x j).toNat = l at *
  generalize x / 2 ^ (32*j) / 2 ^ 32 = q at *
  generalize x % 2 ^ (32 * j) = r at *
  generalize x / 2 ^ (32 * j) = d at *
  generalize 2 ^ (32 * j) = P at *
  subst h2
  have : P * (2 ^ 32 * q + l) = 2 ^ 32 * (P * q) + l * P := by ring
  have e2 : P * (v.toNat + 2 ^ 32 * q) = v.toNat * P + 2 ^ 32 * (P * q) := by ring
  rw [e2]
  omega

/-- A limb write keeps the register's range. -/
theorem setLimb_lt {x j L : Nat} {v : Word} (hx : x < 2 ^ (32 * L)) (hj : j < L) : setLimb x j v < 2 ^ (32 * L) := by
  obtain ⟨d, rfl⟩ : ∃ d, L = j + 1 + d := ⟨L - (j+1), by omega⟩
  have hP : 0 < 2 ^ (32 * j) := by positivity
  have e : 2 ^ (32 * (j + 1 + d)) = 2 ^ (32 * j) * (2 ^ 32 * 2 ^ (32 * d)) := by rw [← pow_add, ← pow_add]; congr 1; ring
  rw [setLimb_split]
  have h1 : x / 2 ^ (32 * j) / 2 ^ 32 < 2 ^ (32 * d) := by
    rw [Nat.div_div_eq_div_mul, Nat.div_lt_iff_lt_mul (by positivity)]
    rw [e] at hx; rw [Nat.mul_comm (2 ^ (32 * d)), Nat.mul_assoc]; exact hx
  have h2 : v.toNat + 2 ^ 32 * (x / 2 ^ (32 * j) / 2 ^ 32) < 2 ^ 32 * 2 ^ (32 * d) := by
    have hv := v.isLt
    generalize x / 2 ^ (32 * j) / 2 ^ 32 = q at *
    generalize 2 ^ (32 * d) = D at *
    have : 2 ^ 32 * (q + 1) ≤ 2 ^ 32 * D := Nat.mul_le_mul_left _ h1
    omega
  have hr : x % 2 ^ (32 * j) < 2 ^ (32 * j) := Nat.mod_lt _ hP
  rw [e]
  generalize v.toNat + 2 ^ 32 * (x / 2 ^ (32 * j) / 2 ^ 32) = z at *
  generalize 2 ^ 32 * 2 ^ (32 * d) = D at *
  generalize 2 ^ (32 * j) = P at *
  have : P * (z + 1) ≤ P * D := Nat.mul_le_mul_left _ h2
  rw [Nat.mul_add] at this
  omega

end Sys2Proof.Machine
end

