-- ==== Sys2Proof/Laws/Step.lean ====
section
/-! SUPPORT. What a step can do, said once: one lemma per event, and their inversion. -/

namespace Sys2Proof.Machine

open Sys2Proof

/-- On the core's turn a step is the core's move. -/
theorem step_coreTurn {s : State} {rest : List Event} (h : CoreTurn s rest) :
    step s = coreMove { s with sched := rest } := by
  rcases h with ⟨h, rfl⟩ | h
  · unfold step runNext; rw [h]
    cases s; cases h; rfl
  · unfold step runNext; rw [h]; rfl

/-- A host access at the head of the schedule. -/
theorem step_access {s : State} {acc : BusAccess} {rest : List Event} (h : s.sched = .access acc :: rest) :
    step s = .next (busAccess acc { s with sched := rest }) := by
  unfold step runNext; rw [h]; rfl

/-- A poll at the head of the schedule. -/
theorem step_wait {s : State} {rest : List Event} (hs : s.sched = .wait :: rest) :
    step s = .next (pollStatus { s with sched := rest }) := by unfold step runNext; rw [hs]; rfl

/-- The core's move always answers a next state. -/
theorem coreMove_next (s : State) : ∃ t, coreMove s = .next t := by
  unfold coreMove
  split
  · split
    · exact exec_next _ _
    · exact ⟨_, rfl⟩
  · exact ⟨_, rfl⟩

/-- A step always answers a next state. -/
theorem step_next (s : State) : ∃ t, step s = .next t := by
  unfold step runNext
  split
  · exact coreMove_next s
  · rename_i e _ _
    cases e <;> first | exact coreMove_next _ | exact ⟨_, rfl⟩

/-- The core rests, runs the decoded command, or raises IllegalCommand. -/
theorem coreMove_cases {s t : State} (h : coreMove s = .next t) :
    (s.state ≠ .busy ∧ t = s) ∨
    (s.state = .busy ∧ ∃ i, decode s.cmd = .command i ∧ exec i s = .next t) ∨
    (s.state = .busy ∧ (∃ w, decode s.cmd = .illegal w) ∧
      t = { s with errcode := some .illegalCommand, state := .error, waiting := none }) := by
  unfold coreMove fetch at h
  split at h
  · rename_i hb
    split at h
    · exact .inr (.inl ⟨hb, _, ‹_›, h⟩)
    · cases h; exact .inr (.inr ⟨hb, ⟨_, ‹_›⟩, rfl⟩)
  · cases h; exact .inl ⟨‹_›, rfl⟩

/-- A poll while BUSY answers `STATUS` and puts another agent's move and the next poll at the head. -/
theorem pollStatus_busy {s : State} (hb : s.state = .busy) :
    pollStatus s = { s with resp := some (.data (statusWord s)), sched := afterBusyPoll s } := by
  unfold pollStatus
  rw [busRead_some (locate_control s.limbs).2.1]
  simp [hb, readLocation]

/-- A poll outside BUSY answers `STATUS` and is the last. -/
theorem pollStatus_done {s : State} (hb : s.state ≠ .busy) :
    pollStatus s = { s with resp := some (.data (statusWord s)) } := by
  unfold pollStatus
  rw [busRead_some (locate_control s.limbs).2.1]
  simp [hb, readLocation]

/-- A poll writes the response and the schedule alone. -/
theorem pollStatus_cases (s : State) : ∃ r sc, pollStatus s = { s with resp := some r, sched := sc } := by
  by_cases hb : s.state = .busy
  · exact ⟨_, _, pollStatus_busy hb⟩
  · exact ⟨_, s.sched, pollStatus_done hb⟩

/-- The first input behind a list without inputs is taken out of it. -/
theorem firstInput_append {pre : List Event} (h : ∀ e ∈ pre, e ≠ .reset ∧ ∀ r : Nat, e ≠ .answer r)
    (later : List Event) :
    firstInput (pre ++ later) = (firstInput later).map (fun p => (p.1, pre ++ p.2)) := by
  induction pre with
  | nil => simp
  | cons e pre ih =>
    have h1 := h e List.mem_cons_self
    have h2 := ih (fun e he => h e (List.mem_cons_of_mem _ he))
    cases e with
    | reset => exact absurd rfl h1.1
    | answer r => exact absurd rfl (h1.2 r)
    | core => simp [firstInput, h2, Function.comp_def]
    | access acc => simp [firstInput, h2, Function.comp_def]
    | wait => simp [firstInput, h2, Function.comp_def]

/-- What comes after a poll while the request is answered or none is outstanding. -/
theorem afterBusyPoll_running {s : State} (h : requestPending s = false) :
    afterBusyPoll s = .core :: .wait :: s.sched := by simp [afterBusyPoll, h]

/-- What comes after a poll while the request is unanswered. -/
theorem afterBusyPoll_starved {s : State} (h : requestPending s = true) :
    (∃ e rest, firstInput s.sched = some (e, rest) ∧ afterBusyPoll s = e :: .wait :: rest) ∨
    (firstInput s.sched = none ∧ afterBusyPoll s = .core :: .wait :: s.sched) := by
  unfold afterBusyPoll
  rw [if_pos h]
  cases hf : firstInput s.sched with
  | none => exact .inr ⟨rfl, rfl⟩
  | some p => exact .inl ⟨p.1, p.2, rfl, rfl⟩

/-- An answer is discarded or becomes the one answer of the outstanding request. -/
theorem answerRandom_cases (r : Nat) (s : State) : answerRandom r s = s ∨
    (s.waiting.isSome = true ∧ s.words = [] ∧ answerRandom r s = { s with words := [r % 2 ^ (32 * s.limbs)] }) := by
  unfold answerRandom requestPending
  split
  · rename_i h; rw [Bool.and_eq_true, List.isEmpty_iff] at h
    exact .inr ⟨h.1, h.2, rfl⟩
  · exact .inl rfl

/-- The six kinds of step. -/
theorem step_cases {s t : State} (h : step s = .next t) :
    (∃ rest, CoreTurn s rest ∧ coreMove { s with sched := rest } = .next t) ∨
    (∃ off size rest, s.sched = .access (.read off size) :: rest ∧ t = busRead off size { s with sched := rest }) ∨
    (∃ off size v rest, s.sched = .access (.write off size v) :: rest ∧
      t = busWrite off size v { s with sched := rest }) ∨
    (∃ r rest, s.sched = .answer r :: rest ∧ t = answerRandom r { s with sched := rest }) ∨
    (∃ rest, s.sched = .reset :: rest ∧ t = resetBlock { s with sched := rest }) ∨
    (∃ rest, s.sched = .wait :: rest ∧ t = pollStatus { s with sched := rest }) := by
  rcases hs : s.sched with _ | ⟨e, rest⟩
  · left; exact ⟨[], .inl ⟨hs, rfl⟩, by rw [← step_coreTurn (.inl ⟨hs, rfl⟩)]; exact h⟩
  · cases e with
    | core => left; exact ⟨rest, .inr hs, by rw [← step_coreTurn (.inr hs)]; exact h⟩
    | access acc =>
      unfold step runNext at h; rw [hs] at h
      cases acc <;> cases h
      · exact .inr (.inl ⟨_, _, _, rfl, rfl⟩)
      · exact .inr (.inr (.inl ⟨_, _, _, _, rfl, rfl⟩))
    | answer r =>
      unfold step runNext at h; rw [hs] at h; cases h
      exact .inr (.inr (.inr (.inl ⟨_, _, rfl, rfl⟩)))
    | reset =>
      unfold step runNext at h; rw [hs] at h; cases h
      exact .inr (.inr (.inr (.inr (.inl ⟨_, rfl, rfl⟩))))
    | wait =>
      unfold step runNext at h; rw [hs] at h; cases h
      exact .inr (.inr (.inr (.inr (.inr ⟨_, rfl, rfl⟩))))

/-- A run takes its first step first. -/
theorem host_run_succ (M : Host.Core) (k : Nat) (s t : M.State) (h : M.step s = .next t) :
    M.run (k + 1) s = M.run k t := by
  simp [Host.Core.run, h]

/-- A run of this machine takes its first step first. -/
theorem run_succ (k : Nat) {s t : State} (h : step s = .next t) :
    Sys2Proof.core.run (k + 1) s = Sys2Proof.core.run k t :=
  host_run_succ Sys2Proof.core k s t h

/-- A run of no steps. -/
theorem run_zero (s : State) : Sys2Proof.core.run 0 s = .next s := rfl

end Sys2Proof.Machine
end

