-- ==== Sys2Proof/Tests/Slice0.lean ====
section
/-! SUPPORT. The model's own tests: the well-formedness smoke test, decoding of words written out from the spec's
encoding, vectors of spec 95_test_vectors.md, and for every statement with hypotheses a witness that meets them. -/

namespace Sys2Proof.Tests

open Sys2Proof Sys2Proof.Machine

/-! ### Well-formedness: each check refuses an ill-formed term -/

/-- spec 30_encoding.md R72. -/
theorem test_wf_rsvd : FormatC.wf { opcode := 0x05, rsvd := 1 } = false := by decide

/-- spec 30_encoding.md R73: both sides of the assigned opcodes. -/
theorem test_wf_opcode :
    FormatC.wf { opcode := 0x00, rsvd := 0 } = false ∧ FormatC.wf { opcode := 0x06, rsvd := 0 } = false ∧
    FormatC.wf { opcode := 0x05, rsvd := 0 } = true := by decide

/-- spec 00_scope.md R7: 32 ≤ W ≤ 8192. -/
theorem test_wf_limbs : Config.limbsWf 0 = false ∧ Config.limbsWf 257 = false ∧
    Config.limbsWf 1 = true ∧ Config.limbsWf 256 = true := by decide

/-! ### Decoding: words bit by bit from spec 30_encoding.md R70, R71 -/

theorem test_decode_modmul : decode 0b00000000000000000000000000000001#32 = .command .modmul := by decide

theorem test_decode_modexp : decode 0b00000000000000000000000000000010#32 = .command .modexp := by decide

theorem test_decode_egcd : decode 0b00000000000000000000000000000011#32 = .command .egcd := by decide

theorem test_decode_modinv : decode 0b00000000000000000000000000000100#32 = .command .modinv := by decide

theorem test_decode_primetest : decode 0b00000000000000000000000000000101#32 = .command .primetest := by decide

/-- The illegal words of spec 95_test_vectors.md V-DEC-1 to V-DEC-4. -/
theorem test_decode_illegal :
    decode 0x00000000#32 = .illegal .reservedOpcode ∧ decode 0x00000006#32 = .illegal .reservedOpcode ∧
    decode 0x00000105#32 = .illegal .reservedBits ∧ decode 0xFFFFFFFF#32 = .illegal .reservedBits := by decide

/-- spec/opcode_table.json's numbering, as the host asks it. -/
theorem test_decode_table_word : decodeTableWord 32 5 = some .primetest ∧ decodeTableWord 8 2 = some .modexp ∧
    decodeTableWord 32 0x105 = none ∧ decodeTableWord 40 1 = none := by decide

/-! ### Vectors of spec 95_test_vectors.md -/

/-- The state with these operands and a command accepted, W = 32 · `limbs`, all else as after reset. -/
def ready (limbs a b n : Nat) (i : Instr) : State :=
  { State.resetAt limbs with a := a, b := b, n := n, cmd := encode i, state := .busy }

/-- What `f` reads of a next state. -/
def after {α : Type} (r : Result) (f : State → α) : Option α :=
  match r with
  | .next t => some (f t)
  | .fault _ => none
  | .refused _ => none

/-- V-MUL-6: operands above an even modulus. -/
theorem test_modmul_reduces : after (step (ready 1 4294967295 4294967295 4294967294 .modmul))
    (fun t => (t.res, t.state)) = some (1, .done) := by decide

/-- V-MUL-8: N = 0, STATUS = 0x00000013. -/
theorem test_modmul_zero_modulus : after (step (ready 1 12 13 0 .modmul))
    (fun t => (t.res, statusWord t)) = some (0, 0x00000013#32) := by decide

/-- V-EXP-2: the source's decryption. -/
theorem test_modexp_decrypts : after (step (ready 1 2790 2753 3233 .modexp))
    (fun t => (t.res, statusWord t)) = some (65, 0x00000002#32) := by decide

/-- V-EXP-4: 0^0 mod 1 = 0. -/
theorem test_modexp_modulus_one : after (step (ready 1 0 0 1 .modexp)) (fun t => t.res) = some 0 := by decide

/-- The trace of spec 95_test_vectors.md section 2.2: 5^13 mod 23, the hidden registers after each iteration. -/
theorem test_modexp_trace : (List.range 5).map (fun i => (modexpLoop 13 23 i (modexpInit 5 23))) =
    [⟨5, 1, 0⟩, ⟨2, 5, 1⟩, ⟨4, 5, 2⟩, ⟨16, 20, 3⟩, ⟨3, 21, 4⟩] := by decide

/-- V-GCD-1: the document's φ and e; RFLAGS bits (YNEG, XNEG) = 1, 0. -/
theorem test_egcd_negative_y : after (step (ready 1 3120 17 0 .egcd))
    (fun t => (t.rx, t.ry, t.rg, rflagsWord t)) = some (2, 367, 1, 0x00000004#32) := by decide

/-- V-GCD-24, W = 64. -/
theorem test_egcd_two_limbs : after (step (ready 2 0xFFFFFFFFFFFFFFC5 0x000000010000000F 0 .egcd))
    (fun t => (t.rx, t.ry, t.rg, rflagsWord t)) =
      some (0x00000000390F6BF7, 0x390F6BF3A818ACAC, 1, 0x00000002#32) := by decide

/-- The forward trace of spec 95_test_vectors.md section 2.3 for (240, 46), at exit. -/
theorem test_egcd_forward_trace : egcdLoop 46 (egcdInit 240 46) = ⟨2, 0, -9, 23, 47, -120⟩ := by decide

/-- V-INV-1: the negative coefficient is normalised. -/
theorem test_modinv_private_exponent : after (step (ready 1 1 17 3120 .modinv))
    (fun t => (t.res, t.rx, statusWord t)) = some (2753, 0, 0x00000002#32) := by decide

/-- V-INV-12: A = 0 does not mask NotInvertible. -/
theorem test_modinv_not_invertible : after (step (ready 1 0 4 8 .modinv))
    (fun t => (t.res, statusWord t)) = some (0, 0x00000023#32) := by decide

/-- V-PT-4: rejection below and above the range, early exit; the fifth word is not consumed. -/
theorem test_primetest_composite :
    after (step { ready 1 0 0 561 .primetest with
        k := 3, words := [0x00000000, 0x00000402, 0xFFFFFFFF, 0x00000003, 0x12345678] })
      (fun t => (t.verdict, t.state, t.words)) = some (false, .done, [0x12345678]) := by decide

/-- V-PT-7: the smallest prime, five words consumed. -/
theorem test_primetest_two :
    after (step { ready 1 0 0 2 .primetest with
        k := 3, words := [0x00000000, 0x00000001, 0x00000003, 0x00000002, 0x00000005] })
      (fun t => (rflagsWord t, t.words)) = some (0x00000001#32, []) := by decide

/-- V-DEC-3: an illegal word is accepted, kept in `CMD`, and ends in IllegalCommand. -/
theorem test_illegal_command :
    after (step { State.resetAt 1 with cmd := 0x105, state := .busy }) (fun t => (statusWord t, t.cmd)) =
      some (0x00000033#32, 0x00000105#32) := by decide

/-- V-WIN-6: dropped, with the normal response. -/
theorem test_window_dropped :
    after (step { ready 1 7 8 10 .modmul with sched := [.access (.write 0x0400 4 9)] })
      (fun t => (t.a, statusWord t, t.resp)) = some (7, 0x00000101#32, some .ok) := by decide

/-- V-WIN-1, V-WIN-4, V-WIN-5: read-only, limb 1 at W = 32, misaligned and sub-word. -/
theorem test_window_refused :
    ([.write 0x0004 4 1, .write 0x0404 4 1, .read 0x0402 4, .read 0x0400 2] : List BusAccess).map
      (fun acc => after (step { ready 1 7 8 10 .modmul with sched := [.access acc] }) (fun t => t.resp)) =
      [some (some .error), some (some .error), some (some .error), some (some .error)] := by decide

/-- P5 lines 6 and 18, W = 64: limb 1 of a register. -/
theorem test_window_limb_order :
    after (step { State.resetAt 2 with ry := 0x390F6BF3A818ACAC, sched := [.access (.read 0x1804 4)] })
      (fun t => t.resp) = some (some (.data 0x390F6BF3#32)) := by decide

/-! ### Witnesses: concrete states and operands that meet a statement's hypotheses -/

theorem witness_StepRunsTheDecodedCommand :
    (ready 1 7 8 10 .modmul).state = .busy ∧ decode (ready 1 7 8 10 .modmul).cmd = .command .modmul ∧
    CoreTurn (ready 1 7 8 10 .modmul) [] ∧
    CoreTurn { ready 1 7 8 10 .modmul with sched := [.core, .wait] } [.wait] :=
  ⟨by decide, by decide, .inl ⟨rfl, rfl⟩, .inr rfl⟩

theorem witness_AcceptStartsACommand :
    (∃ s : State, s.state ≠ .busy ∧ s.sched = [.access (.write 0x0000 4 0xFFFFFFFF)]) ∧
    (∃ s t : State, s.state = .busy ∧ step s = .next t ∧ t.state = .busy) :=
  ⟨⟨{ State.resetAt 1 with state := .error, sched := [.access (.write 0x0000 4 0xFFFFFFFF)] }, by decide, rfl⟩,
   ⟨{ ready 1 7 8 10 .modmul with sched := [.access (.write 0x0400 4 9)] }, _, rfl, rfl, rfl⟩⟩

theorem witness_StateMovesOnlyAlongItsEdges :
    (∃ s t : State, step s = .next t ∧ t.state ≠ s.state ∧ t.state = .busy) ∧
    (∃ s t : State, step s = .next t ∧ t.state ≠ s.state ∧ t.state = .done) ∧
    (∃ s t : State, step s = .next t ∧ t.state ≠ s.state ∧ t.state = .idle) :=
  ⟨⟨{ State.resetAt 1 with sched := [.access (.write 0x0000 4 1)] }, _, rfl, by decide, rfl⟩,
   ⟨ready 1 7 8 10 .egcd, _, rfl, by decide, rfl⟩,
   ⟨{ ready 1 7 8 10 .egcd with sched := [.reset] }, _, rfl, by decide, rfl⟩⟩

theorem witness_CoreRestsWhenNotBusy :
    ∃ s : State, s.state ≠ .busy ∧ CoreTurn s [.reset] :=
  ⟨{ State.resetAt 1 with state := .done, sched := [.core, .reset] }, by decide, .inr rfl⟩

theorem witness_NoCommandModifiesAnOperand :
    (∃ t : State, exec .egcd (ready 1 3120 17 0 .egcd) = .next t) ∧ Place.reg .res ∈ writesOf .modmul :=
  ⟨⟨_, rfl⟩, by decide⟩

theorem witness_CommandsWriteAndRaiseWhatTheTableLists :
    (∃ t : State, exec .modmul (ready 1 7 8 10 .modmul) = .next t ∧ t.state = .done) ∧
    (∃ t : State, exec .modmul (ready 1 7 8 0 .modmul) = .next t ∧ t.state = .error) ∧
    (ready 1 7 8 10 .modmul).state = .busy ∧ Place.k ∉ writesOf .modmul :=
  ⟨⟨_, rfl, rfl⟩, ⟨_, rfl, rfl⟩, rfl, by decide⟩

theorem witness_OutcomeDependsOnlyOnOperandsRead :
    let s₁ := { ready 1 1 2 561 .primetest with k := 1, words := [2] }
    let s₂ := { ready 1 3 4 561 .primetest with k := 1, words := [2], res := 9, verdict := true }
    s₁.state = .busy ∧ s₂.state = .busy ∧ s₁.errcode = none ∧ s₂.errcode = none ∧
    (∀ p ∈ readsOf .primetest, readPlace s₁ p = readPlace s₂ p) ∧ s₁.words = s₂.words ∧ s₁.waiting = s₂.waiting ∧
    (∃ t, exec .primetest s₁ = .next t ∧ t.state = .done) ∧ ∃ t, exec .primetest s₂ = .next t :=
  ⟨rfl, rfl, rfl, rfl, by decide, rfl, rfl, ⟨_, rfl, rfl⟩, _, rfl⟩

theorem witness_CommandFrameInTheWindow :
    ∃ t : State, exec .modmul (ready 1 7 8 10 .modmul) = .next t ∧ locate 1 0x1000 = some (.limbOf .res 0) ∧
      readLocation t (.limbOf .res 0) ≠ readLocation (ready 1 7 8 10 .modmul) (.limbOf .res 0) :=
  ⟨_, rfl, by decide, by decide⟩

theorem witness_BezoutResultsChangeOnlyByEgcd :
    ∃ s t : State, step s = .next t ∧ (∀ rest, s.sched ≠ .reset :: rest) ∧
      ¬ (s.state = .busy ∧ decode s.cmd = .command .egcd ∧ ∃ rest, CoreTurn s rest) :=
  ⟨ready 1 1 17 3120 .modinv, _, rfl, (fun rest h => by cases h), fun h => absurd h.2.1 (by decide)⟩

/-- A reset block with a schedule meets the invariant. -/
theorem inv_resetAt (limbs : Nat) (h : Config.limbsWf limbs = true) (sched : List Event) :
    Inv { State.resetAt limbs with sched := sched } :=
  ⟨h, fun r => by cases r <;> exact Nat.two_pow_pos _, by simp [State.resetAt], fun h => (by cases h),
    fun h => (by cases h), fun _ => ⟨rfl, rfl, rfl, rfl, rfl, rfl, rfl, rfl, rfl⟩, fun r h => (by cases h),
    fun t h => (by cases h)⟩

theorem witness_EveryStepKeepsTheInvariant :
    (∃ t : State, Inv (State.resetAt 256) ∧ step (State.resetAt 256) = .next t) ∧
    Inv { State.resetAt 1 with
      n := 561, k := 3, cmd := encode .primetest, state := .busy, ovr := true, waiting := some 2,
      rx := 5, xneg := true, words := [4294967295] } := by
  refine ⟨⟨_, inv_resetAt 256 (by decide) [], rfl⟩, ⟨by decide, fun r => by cases r <;> decide, by decide, by decide, by decide,
    by decide, by decide, fun t h => ?_⟩⟩
  cases h
  decide

theorem witness_ResetMeetsTheInvariant : Config.limbsWf 1 = true ∧ Config.limbsWf 256 = true := by decide

/-- The refused clauses: size, alignment, the limb just past the last one, the end of the window, read-only. -/
theorem witness_RefusedAccessChangesNothing :
    Config.limbsWf (State.resetAt 1).limbs = true ∧ (2 : Nat) ≠ 4 ∧ 0x0402 % 4 ≠ 0 ∧
    ¬ Mapped 1 0x0404 ∧ ¬ Mapped 256 0x2000 ∧ ¬ Mapped 256 0x0010 ∧
    ¬ MappedWritable 256 0x1000 ∧ ¬ MappedWritable 256 0x0004 ∧ ¬ MappedWritable 256 0x000C ∧
    ({ State.resetAt 1 with sched := [.access (.read 0x0404 4)] } : State).sched = .access (.read 0x0404 4) :: [] ∧
    ({ State.resetAt 1 with sched := [.access (.write 0x1000 4 5)] } : State).sched =
      .access (.write 0x1000 4 5) :: [] := by
  refine ⟨by decide, by decide, by decide, ?_, ?_, ?_, ?_, ?_, ?_, rfl, rfl⟩ <;>
    (first | unfold Mapped | unfold MappedWritable) <;> omega

/-- One offset per clause, and the last limb of the last bank at the largest width. -/
theorem witness_ReadsReturnTheMappedWord :
    (∃ s : State, s.sched = .access (.read 0x0000 4) :: [] ∧ s.cmd = 5) ∧
    (∃ s : State, s.sched = .access (.read 0x0004 4) :: [] ∧ s.ovr = true) ∧
    (∃ s : State, s.sched = .access (.read 0x0008 4) :: [] ∧ s.k = 3) ∧
    (∃ s : State, s.sched = .access (.read 0x000C 4) :: [] ∧ s.yneg = true) ∧
    (∃ s : State, s.sched = .access (.read 0x1FFC 4) :: [] ∧ Config.limbsWf s.limbs = true ∧ 255 < s.limbs ∧
      0x1FFC = 0x400 * (regIndex .rg + 1) + 4 * 255) :=
  ⟨⟨{ State.resetAt 1 with cmd := 5, sched := [.access (.read 0x0000 4)] }, rfl, rfl⟩,
   ⟨{ State.resetAt 1 with ovr := true, sched := [.access (.read 0x0004 4)] }, rfl, rfl⟩,
   ⟨{ State.resetAt 1 with k := 3, sched := [.access (.read 0x0008 4)] }, rfl, rfl⟩,
   ⟨{ State.resetAt 1 with yneg := true, sched := [.access (.read 0x000C 4)] }, rfl, rfl⟩,
   ⟨{ State.resetAt 256 with sched := [.access (.read 0x1FFC 4)] }, rfl, by decide, by decide, by decide⟩⟩

theorem witness_WritesWhileBusyAreDropped :
    (∃ s : State, Config.limbsWf s.limbs = true ∧ s.state = .busy ∧ MappedWritable s.limbs 0x0FFC ∧
      s.sched = .access (.write 0x0FFC 4 9) :: []) ∧
    (∃ s t : State, s.state ≠ .busy ∧ s.sched = .access (.write 0x0000 4 1) :: [] ∧ step s = .next t ∧
      s.ovr = true) ∧
    (∃ s t : State, s.sched = .reset :: [] ∧ step s = .next t ∧ s.ovr = true) :=
  ⟨⟨{ ready 256 7 8 10 .modmul with sched := [.access (.write 0x0FFC 4 9)] }, rfl, rfl,
      .inr (.inr ⟨2, 255, by decide, by decide, by decide⟩), rfl⟩,
   ⟨{ State.resetAt 1 with state := .done, ovr := true, sched := [.access (.write 0x0000 4 1)] }, _, by decide, rfl,
      rfl, rfl⟩,
   ⟨{ ready 1 7 8 10 .modmul with ovr := true, sched := [.reset] }, _, rfl, rfl, rfl⟩⟩

theorem witness_OperandWriteReplacesOneLimb :
    (∃ s : State, Config.limbsWf s.limbs = true ∧ s.state ≠ .busy ∧ 1 < s.limbs ∧
      s.sched = .access (.write (0x400 * (regIndex .n + 1) + 4 * 1) 4 9) :: []) ∧
    (∃ s : State, s.state ≠ .busy ∧ s.sched = .access (.write 0x0008 4 20) :: []) :=
  ⟨⟨{ State.resetAt 2 with sched := [.access (.write 0x0C04 4 9)] }, by decide, by decide, by decide, rfl⟩,
   ⟨{ State.resetAt 1 with sched := [.access (.write 0x0008 4 20)] }, by decide, rfl⟩⟩

theorem witness_LoadScriptSetsTheWholeRegister :
    ∃ s : State, Inv s ∧ s.state ≠ .busy ∧ 0x0000000100000000 < 2 ^ (32 * s.limbs) ∧
      s.sched = scriptLD s.limbs .a 0x0000000100000000 ++ [] :=
  ⟨{ State.resetAt 2 with sched := scriptLD 2 .a 0x0000000100000000 ++ [] }, inv_resetAt 2 (by decide) _, by decide, by decide,
    rfl⟩

theorem witness_ReadScriptReturnsTheRegister :
    ∃ s : State, Inv s ∧ s.sched = scriptRD s.limbs .res ++ [.wait] :=
  ⟨{ State.resetAt 2 with sched := scriptRD 2 .res ++ [.wait] }, inv_resetAt 2 (by decide) _, rfl⟩

theorem witness_IssueAndWaitCompletes :
    ∃ s : State, s.state ≠ .busy ∧ s.sched = scriptISSUE .modexp ++ scriptWAIT ++ [.reset] :=
  ⟨{ State.resetAt 1 with state := .error, sched := scriptISSUE .modexp ++ scriptWAIT ++ [.reset] }, by decide, rfl⟩

theorem witness_BitlenAndBit : 0 < (560 : Nat) ∧ 0 < (10 : Nat) ∧ 2 ^ (10 - 1) ≤ 560 ∧ 560 < 2 ^ 10 := by decide

theorem witness_ModmulCommitsTheProduct :
    (ready 1 12 13 0 .modmul).n = 0 ∧ (ready 1 7 8 10 .modmul).n ≠ 0 := by decide

theorem witness_ModexpCommitsThePower :
    (ready 1 9 9 0 .modexp).n = 0 ∧ (ready 1 0 0 1 .modexp).n ≠ 0 := by decide

theorem witness_ModexpLoopInvariant : 0 < (23 : Nat) := by decide

theorem witness_ModexpFixedIterationCountAgrees : 0 < (23 : Nat) ∧ bitlen 13 ≤ 32 := by decide

/-- The textbook key of spec 95_test_vectors.md S6. -/
theorem witness_RsaRoundTrip :
    Nat.Prime 61 ∧ Nat.Prime 53 ∧ 61 ≠ 53 ∧ 17 * 2753 % ((61 - 1) * (53 - 1)) = 1 ∧ 65 < 61 * 53 ∧
    (ready 1 65 17 3233 .modexp).n = 61 * 53 ∧ (ready 1 2790 2753 3233 .modexp).b = 2753 ∧
    ∃ t : State, exec .modexp (ready 1 65 17 3233 .modexp) = .next t ∧
      (ready 1 2790 2753 3233 .modexp).a = t.res :=
  ⟨by norm_num, by norm_num, by decide, by decide, by decide, by decide, by decide, _, rfl, by decide⟩

theorem witness_EgcdCoefficientsFit :
    EgcdDefines 3120 17 2 (-367) 1 ∧ (17 : Nat) ≠ 0 ∧ 1 ≤ 32 ∧ 3120 < 2 ^ 32 ∧ 17 < 2 ^ 32 := by
  refine ⟨?_, by decide, by decide, by decide, by decide⟩
  have h1 := EgcdDefines.recurse (a := 8) (b := 1) (by decide) (.base 1)
  have h2 := EgcdDefines.recurse (a := 9) (b := 8) (by decide) h1
  have h3 := EgcdDefines.recurse (a := 17) (b := 9) (by decide) h2
  exact EgcdDefines.recurse (a := 3120) (b := 17) (by decide) h3

theorem witness_ForwardEuclidRegistersStayInRange : Nat.gcd 240 46 ≠ 0 ∧ 46 ≤ 46 := by decide

theorem witness_ModinvCommitsTheQuotient :
    (ready 1 1 3 0 .modinv).n = 0 ∧
    ((ready 1 0 4 8 .modinv).n ≠ 0 ∧ Nat.gcd (ready 1 0 4 8 .modinv).b (ready 1 0 4 8 .modinv).n ≠ 1) ∧
    ((ready 1 7 9 1 .modinv).n ≠ 0 ∧ Nat.gcd (ready 1 7 9 1 .modinv).b (ready 1 7 9 1 .modinv).n = 1) := by decide

theorem witness_ModinvResultIsTheInverse :
    1 ≤ (ready 1 1 17 3120 .modinv).n ∧ Nat.gcd (ready 1 1 17 3120 .modinv).b (ready 1 1 17 3120 .modinv).n = 1 ∧
    (ready 1 1 17 3120 .modinv).a = 1 := by decide

theorem witness_PrimetestChecksItsArgumentsFirst :
    (ready 1 0 0 1 .primetest).n < 2 ∧ 2 ≤ (ready 1 0 0 2 .primetest).n ∧ (ready 1 0 0 2 .primetest).k = 0 := by
  decide

theorem witness_DrawMasksAndRejects : 2 ≤ 561 ∧ 2 ^ (10 - 1) ≤ 561 - 1 ∧ 561 - 1 < 2 ^ 10 := by decide

theorem witness_TrialPassesExactlyWhenFermatHolds : (2 : Nat) ≤ 2 := by decide

/-- V-PT-2 (the last of two words brings the accepted witnesses to K = 2) and V-PT-3 (the second word fails). -/
theorem witness_PrimetestVerdictAndConsumption :
    let s := { ready 1 0 0 15 .primetest with k := 2, words := [4] ++ 11 :: [] }
    let u := { ready 1 0 0 15 .primetest with k := 5, words := [4] ++ 7 :: [99] }
    (2 ≤ s.n ∧ s.waiting = none ∧ witnessOf s.n 11 = some 11 ∧ (∀ v ∈ acceptedWitnesses s.n [4], v ^ (s.n - 1) % s.n = 1) ∧
      (acceptedWitnesses s.n [4]).length + 1 = s.k.toNat ∧ 11 ^ (s.n - 1) % s.n = 1) ∧
    (2 ≤ u.n ∧ u.waiting = none ∧ witnessOf u.n 7 = some 7 ∧ (∀ v ∈ acceptedWitnesses u.n [4], v ^ (u.n - 1) % u.n = 1) ∧
      (acceptedWitnesses u.n [4]).length < u.k.toNat ∧ ¬ 7 ^ (u.n - 1) % u.n = 1) := by
  decide

/-- A composite candidate that waits for its third word. -/
def waitingState : State :=
  { State.resetAt 1 with
    n := 561, k := 3, cmd := encode .primetest, state := .busy, waiting := some 2 }

theorem inv_waitingState : Inv waitingState := by
  refine ⟨by decide, fun r => by cases r <;> decide, by decide, by decide, by decide, by decide, by decide,
    fun t h => ?_⟩
  cases h
  decide

/-- The invariant says nothing about the schedule. -/
theorem inv_waitingState_sched (sched : List Event) : Inv { waitingState with sched := sched } :=
  ⟨inv_waitingState.width, fun r => by have h := inv_waitingState.ranges r; cases r <;> exact h,
    inv_waitingState.errcodeIffError, inv_waitingState.xnegNonzero, inv_waitingState.ynegNonzero,
    inv_waitingState.idleFresh, inv_waitingState.wordsInRange, inv_waitingState.waitingLegal⟩

/-- The polls of a starved `WAIT`: the reset listed behind a host access is taken next (spec 70_reset_and_hazards.md
R190: only reset ends it). -/
theorem test_wait_lets_reset_in :
    after (step { waitingState with sched := [.wait, .access (.read 0x000C 4), .reset] }) (fun t => t.sched) =
      some [.reset, .wait, .access (.read 0x000C 4)] := by decide

/-- The core moves between two polls of a command that is not starved. -/
theorem test_wait_lets_core_move :
    after (step { ready 1 7 8 10 .modmul with sched := [.wait, .reset] }) (fun t => t.sched) =
      some [.core, .wait, .reset] := by decide

theorem witness_StarvedPrimetestStaysBusy :
    (let s := { ready 1 0 0 15 .primetest with k := 3, words := [4, 15, 11] };
      2 ≤ s.n ∧ s.waiting = none ∧ (acceptedWitnesses s.n s.words).length < s.k.toNat ∧
      ∀ w ∈ acceptedWitnesses s.n s.words, w ^ (s.n - 1) % s.n = 1) ∧
    (Inv waitingState ∧ waitingState.waiting = some 2 ∧ waitingState.words = [] ∧ waitingState.sched = []) ∧
    (∃ t : State, waitingState.waiting ≠ none ∧ step waitingState = .next t ∧
      (∀ rest, waitingState.sched ≠ .reset :: rest) ∧ ∀ r rest, waitingState.sched ≠ .answer r :: rest) :=
  ⟨by decide, ⟨inv_waitingState, rfl, rfl, rfl⟩, ⟨_, by decide, rfl, (fun rest h => by cases h),
    fun r rest h => by cases h⟩⟩

/-- A host access listed ahead of the input, one state for each clause. -/
theorem witness_StarvedWaitEndsOnlyByInput :
    let pre : List Event := [.access (.read 0x000C 4)];
    (waitingState.state = .busy ∧ waitingState.waiting ≠ none ∧ waitingState.words = [] ∧
      ∀ e ∈ pre, e ≠ .reset ∧ ∀ r : Nat, e ≠ .answer r) ∧
    (∃ s : State, s = { waitingState with sched := .wait :: (pre ++ .reset :: []) }) ∧
    (∃ s : State, s = { waitingState with sched := .wait :: (pre ++ .answer 4294967295 :: [.wait]) } ∧
      4294967295 < 2 ^ (32 * s.limbs)) ∧
    ∃ s : State, Inv s ∧ s = { waitingState with sched := .wait :: pre } :=
  ⟨⟨rfl, by decide, rfl, by simp⟩, ⟨_, rfl⟩, ⟨_, rfl, by decide⟩, ⟨_, inv_waitingState_sched _, rfl⟩⟩

theorem witness_PrimetestResumesWhereItWaited :
    ∃ s t : State, s.state = .busy ∧ s.words = [2, 1023] ∧ exec .primetest s = .next t ∧ t.state = .busy :=
  ⟨{ ready 1 0 0 561 .primetest with k := 3, words := [2, 1023] }, _, rfl, rfl, rfl, rfl⟩

theorem witness_PrimeIsNeverReportedComposite :
    ∃ s t : State, s.n.Prime ∧ s.state = .busy ∧ exec .primetest s = .next t ∧ t.state ≠ .busy :=
  ⟨{ ready 1 0 0 97 .primetest with k := 2, words := [0x85, 0xE0] }, _, by norm_num [ready], rfl, rfl, by decide⟩

theorem witness_WitnessFacts :
    2 ≤ 561 ∧ (3 ≤ 15 ∧ 15 % 2 = 1) ∧ (4 ≤ 4 ∧ 4 % 2 = 0) ∧ Nat.gcd 3 561 ≠ 1 ∧ (1 ≤ 3 ∧ 3 ≤ 3) ∧
    (1 ≤ 14 ∧ 14 ≤ 14) ∧ (1 ≤ 560 ∧ 560 ≤ 560) := by decide

theorem witness_RandomAnswerGoesToTheOutstandingRequest :
    (∃ s : State, s.sched = .answer 4294967295 :: [] ∧ 4294967295 < 2 ^ (32 * s.limbs) ∧ s.waiting ≠ none ∧
      s.words = []) ∧
    (∃ s : State, s.sched = .answer 0 :: [] ∧ 0 < 2 ^ (32 * s.limbs) ∧ s.waiting = none) ∧
    (∃ s : State, s.sched = .answer 0 :: [] ∧ 0 < 2 ^ (32 * s.limbs) ∧ s.waiting ≠ none ∧ s.words ≠ []) :=
  ⟨⟨{ waitingState with sched := [.answer 4294967295] }, rfl, by decide, by decide, rfl⟩,
   ⟨{ State.resetAt 1 with sched := [.answer 0] }, rfl, by decide, rfl⟩,
   ⟨{ waitingState with sched := [.answer 0], words := [7] }, rfl, by decide, by decide, by decide⟩⟩

theorem witness_IllegalWordRaisesIllegalCommand :
    ∃ s : State, s.state = .busy ∧ (∀ i : Instr, s.cmd ≠ encode i) ∧ CoreTurn s [] :=
  ⟨{ State.resetAt 1 with cmd := 0x105, state := .busy }, rfl, by intro i; cases i <;> decide, .inl ⟨rfl, rfl⟩⟩

theorem witness_ErrorWritesOnlyStatus :
    ∃ s t : State, s.state = .busy ∧ CoreTurn s [] ∧ step s = .next t ∧ t.state = .error :=
  ⟨ready 1 1 6 9 .modinv, _, rfl, .inl ⟨rfl, rfl⟩, rfl, rfl⟩

theorem witness_ErrorDoesNotAffectTheNextCommand :
    ∃ s : State, s.sched = .access (.write 0x0000 4 3) :: [] :=
  ⟨{ State.resetAt 1 with sched := [.access (.write 0x0000 4 3)] }, rfl⟩

theorem witness_DeterministicCommandsComplete :
    ∃ s : State, s.state = .busy ∧ decode s.cmd ≠ .command .primetest ∧ CoreTurn s [.wait] :=
  ⟨{ ready 1 1 17 3120 .modinv with sched := [.core, .wait] }, rfl, by decide, .inr rfl⟩

theorem witness_ResetRegisterValues : State.reset = State.resetAt 1 := rfl

theorem witness_ResetAbandonsEverything :
    (∃ s : State, s.sched = .reset :: [.answer 5] ∧ s.state = .busy ∧ s.waiting ≠ none ∧ s.words = [7]) ∧
    (∃ s : State, s.sched = .reset :: [] ∧ s.waiting = none) :=
  ⟨⟨{ waitingState with sched := [.reset, .answer 5], words := [7] }, rfl, rfl, by decide, rfl⟩,
   ⟨{ State.resetAt 1 with sched := [.reset] }, rfl, rfl⟩⟩

end Sys2Proof.Tests
end

section
/-! PROOFS, scope (spec 00_scope.md): what no command writes (R14), what a command's outcome depends on (R15, R75),
and the bit length (R12). -/

namespace Sys2Proof.Machine

open Sys2Proof

/-! ### The bit length -/

/-- A positive value is as long as the one n that has it between two neighbouring powers of two (spec R12). -/
theorem bitlen_eq_iff {v n : Nat} (hv : 0 < v) : bitlen v = n ↔ 0 < n ∧ 2 ^ (n - 1) ≤ v ∧ v < 2 ^ n := by
  constructor
  · rintro rfl
    have hpos : ¬ bitlen v ≤ 0 := by rw [bitlen_le_iff]; omega
    have hlow : ¬ v < 2 ^ (bitlen v - 1) := by rw [← bitlen_le_iff]; omega
    exact ⟨by omega, by omega, lt_two_pow_bitlen v⟩
  · rintro ⟨hn, hlow, hhigh⟩
    have hle : bitlen v ≤ n := (bitlen_le_iff v n).2 hhigh
    have hgt : ¬ bitlen v ≤ n - 1 := by rw [bitlen_le_iff]; omega
    omega

/-- Settles O25: the bit length of a positive value is fixed by its two bounds, `bitlen_eq_iff`. -/
theorem bitlenAndBit : Obligations.BitlenAndBit := by
  unfold Obligations.BitlenAndBit
  exact ⟨rfl, fun _ _ hv => bitlen_eq_iff hv, fun _ _ => rfl⟩

/-! ### What the end of a run of trials leaves alone -/

@[simp] theorem endTrials_a (s : State) (r : TrialRun) : (endTrials s r).a = s.a := by cases r <;> rfl
@[simp] theorem endTrials_b (s : State) (r : TrialRun) : (endTrials s r).b = s.b := by cases r <;> rfl
@[simp] theorem endTrials_n (s : State) (r : TrialRun) : (endTrials s r).n = s.n := by cases r <;> rfl
@[simp] theorem endTrials_k (s : State) (r : TrialRun) : (endTrials s r).k = s.k := by cases r <;> rfl
@[simp] theorem endTrials_cmd (s : State) (r : TrialRun) : (endTrials s r).cmd = s.cmd := by cases r <;> rfl
@[simp] theorem endTrials_ovr (s : State) (r : TrialRun) : (endTrials s r).ovr = s.ovr := by cases r <;> rfl
@[simp] theorem endTrials_limbs (s : State) (r : TrialRun) : (endTrials s r).limbs = s.limbs := by cases r <;> rfl
@[simp] theorem endTrials_sched (s : State) (r : TrialRun) : (endTrials s r).sched = s.sched := by cases r <;> rfl
@[simp] theorem endTrials_resp (s : State) (r : TrialRun) : (endTrials s r).resp = s.resp := by cases r <;> rfl
@[simp] theorem endTrials_errcode (s : State) (r : TrialRun) : (endTrials s r).errcode = s.errcode := by
  cases r <;> rfl

/-! ### No command writes an operand (spec R14) -/

/-- What every command leaves alone, in each of its four ways to end. -/
theorem exec_frame {i : Instr} {s t : State} (h : exec i s = .next t) :
    t.a = s.a ∧ t.b = s.b ∧ t.n = s.n ∧ t.k = s.k ∧ t.cmd = s.cmd ∧ t.ovr = s.ovr ∧
    t.limbs = s.limbs ∧ t.sched = s.sched ∧ t.resp = s.resp := by
  rcases exec_cases h with ⟨c, _, rfl⟩ | ⟨v, _, _, rfl⟩ | ⟨_, rfl⟩ | ⟨_, _, rfl⟩ <;> simp

/-- The places the host loads before a command: the operand registers and `K` (spec 10_state.md R20, R25). -/
def isOperandPlace : Place → Bool
  | .reg r => isOperand r
  | .k => true
  | .verdict => false
  | .xneg => false
  | .yneg => false

/-- Every place of the "reads" column is an operand. -/
theorem isOperandPlace_of_mem_readsOf {i : Instr} {p : Place} (h : p ∈ readsOf i) : isOperandPlace p = true := by
  have hall : ∀ q ∈ readsOf i, isOperandPlace q = true := by cases i <;> decide
  exact hall p h

/-- No place of the "writes on success" column is an operand. -/
theorem isOperandPlace_of_mem_writesOf {i : Instr} {p : Place} (h : p ∈ writesOf i) : isOperandPlace p = false := by
  have hall : ∀ q ∈ writesOf i, isOperandPlace q = false := by cases i <;> decide
  exact hall p h

/-- Settles O9: `exec_frame`, and operands are all that is read and nothing that is written. -/
theorem noCommandModifiesAnOperand : Obligations.NoCommandModifiesAnOperand := by
  unfold Obligations.NoCommandModifiesAnOperand
  refine ⟨fun _ _ _ h => exec_frame h, fun i j p hw hr => ?_⟩
  have hfalse : isOperandPlace p = false := isOperandPlace_of_mem_writesOf hw
  rw [isOperandPlace_of_mem_readsOf hr] at hfalse
  exact Bool.noConfusion hfalse

/-! ### What the outcome of a command depends on (spec R15, 30_encoding.md R75) -/

/-- Two states in which the command `i` has ended alike: the same STATE and ERRCODE and, on success, the same results
and (PRIMETEST) the same words left. -/
def SameOutcome (i : Instr) (t₁ t₂ : State) : Prop :=
  t₁.state = t₂.state ∧ t₁.errcode = t₂.errcode ∧
  (t₁.state = .done → ∀ p ∈ writesOf i, readPlace t₁ p = readPlace t₂ p) ∧
  (i = .primetest → t₁.state = .done → t₁.words = t₂.words)

/-- Ending a command writes none of the places of R75. -/
@[simp] theorem readPlace_commit (s : State) (p : Place) : readPlace (commit s) p = readPlace s p := by
  cases p with
  | reg r => cases r <;> rfl
  | _ => rfl

/-- The same error raised in two states. -/
theorem sameOutcome_of_raise {i : Instr} {c : ErrCode} {s₁ s₂ t₁ t₂ : State}
    (h₁ : raise c s₁ = .next t₁) (h₂ : raise c s₂ = .next t₂) : SameOutcome i t₁ t₂ := by
  cases h₁; cases h₂
  simp [SameOutcome]

/-- Two committed states with the same results. -/
theorem sameOutcome_commit {i : Instr} {s₁ s₂ : State} (herr : s₁.errcode = s₂.errcode)
    (hres : ∀ p ∈ writesOf i, readPlace s₁ p = readPlace s₂ p) (hwords : i = .primetest → s₁.words = s₂.words) :
    SameOutcome i (commit s₁) (commit s₂) := by
  refine ⟨rfl, herr, fun _ p hp => ?_, fun hi _ => hwords hi⟩
  rw [readPlace_commit, readPlace_commit, hres p hp]

/-- The commands whose one result is `RES`: the values of `A`, `B` and `N` fix the error that is raised or the residue
that is committed, whatever else the state holds. -/
theorem exec_residue_cases {i : Instr} (hi : i = .modmul ∨ i = .modexp ∨ i = .modinv) (a b n : Nat) :
    (∃ c, ∀ s : State, s.a = a → s.b = b → s.n = n → exec i s = raise c s) ∨
    (∃ v, ∀ s : State, s.a = a → s.b = b → s.n = n → exec i s = .next (commit { s with res := v })) := by
  by_cases hn : n = 0
  · refine .inl ⟨.invalidArgument, fun s _ _ hs => ?_⟩
    have hz : s.n = 0 := hs.trans hn
    rcases hi with rfl | rfl | rfl <;> exact if_pos hz
  · rcases hi with rfl | rfl | rfl
    · refine .inr ⟨mulmod a b n, ?_⟩
      rintro s rfl rfl rfl
      exact if_neg hn
    · refine .inr ⟨modexp a b n, ?_⟩
      rintro s rfl rfl rfl
      exact if_neg hn
    · by_cases hg : (egcd n b).g = 1
      · refine .inr ⟨mulmod a (inverseOf (egcd n b) n) n, ?_⟩
        rintro s rfl rfl rfl
        exact (if_neg hn).trans (if_pos hg)
      · refine .inl ⟨.notInvertible, ?_⟩
        rintro s rfl rfl rfl
        exact (if_neg hn).trans (if_neg hg)

/-- Two runs of a command with the one result `RES` on the same operands. -/
theorem exec_residue_sameOutcome {i : Instr} (hi : i = .modmul ∨ i = .modexp ∨ i = .modinv) {s₁ s₂ t₁ t₂ : State}
    (herr : s₁.errcode = s₂.errcode) (hreads : ∀ p ∈ readsOf i, readPlace s₁ p = readPlace s₂ p)
    (h₁ : exec i s₁ = .next t₁) (h₂ : exec i s₂ = .next t₂) : SameOutcome i t₁ t₂ := by
  have hcols : readsOf i = [.reg .a, .reg .b, .reg .n] ∧ writesOf i = [.reg .res] ∧ i ≠ .primetest := by
    rcases hi with rfl | rfl | rfl <;> decide
  obtain ⟨hr, hw, hp⟩ := hcols
  obtain ⟨ha, hb, hn⟩ : s₁.a = s₂.a ∧ s₁.b = s₂.b ∧ s₁.n = s₂.n := by
    simpa [hr, readPlace, readReg] using hreads
  rcases exec_residue_cases hi s₁.a s₁.b s₁.n with ⟨c, hc⟩ | ⟨v, hv⟩
  · exact sameOutcome_of_raise ((hc s₁ rfl rfl rfl).symm.trans h₁) ((hc s₂ ha.symm hb.symm hn.symm).symm.trans h₂)
  · rw [hv s₁ rfl rfl rfl] at h₁
    rw [hv s₂ ha.symm hb.symm hn.symm] at h₂
    cases h₁; cases h₂
    exact sameOutcome_commit herr (by simp [hw, readPlace, readReg]) (fun h => absurd h hp)

/-- Two runs of EGCD on the same `A` and `B`. -/
theorem exec_egcd_sameOutcome {s₁ s₂ t₁ t₂ : State} (herr : s₁.errcode = s₂.errcode)
    (hreads : ∀ p ∈ readsOf .egcd, readPlace s₁ p = readPlace s₂ p)
    (h₁ : exec .egcd s₁ = .next t₁) (h₂ : exec .egcd s₂ = .next t₂) : SameOutcome .egcd t₁ t₂ := by
  obtain ⟨ha, hb⟩ : s₁.a = s₂.a ∧ s₁.b = s₂.b := by
    simpa [readsOf, readPlace, readReg] using hreads
  cases h₁; cases h₂
  refine sameOutcome_commit herr ?_ (fun h => by cases h)
  simp [writesOf, readPlace, readReg, ha, hb]

/-- The same run of trials ended in two BUSY states: a verdict commits alike, and a starved run ends neither. -/
theorem endTrials_sameOutcome {s₁ s₂ : State} (hb₁ : s₁.state = .busy) (hb₂ : s₂.state = .busy)
    (herr : s₁.errcode = s₂.errcode) (r : TrialRun) :
    SameOutcome .primetest (endTrials s₁ r) (endTrials s₂ r) := by
  cases r with
  | verdict prime rest => exact sameOutcome_commit herr (by simp [writesOf, readPlace]) (fun _ => rfl)
  | starved t => simp [SameOutcome, endTrials, hb₁, hb₂, herr]

/-- Two runs of PRIMETEST on the same `N`, `K`, words and trial reached. -/
theorem exec_primetest_sameOutcome {s₁ s₂ t₁ t₂ : State} (hb₁ : s₁.state = .busy) (hb₂ : s₂.state = .busy)
    (herr : s₁.errcode = s₂.errcode) (hreads : ∀ p ∈ readsOf .primetest, readPlace s₁ p = readPlace s₂ p)
    (hwords : s₁.words = s₂.words) (hwaiting : s₁.waiting = s₂.waiting)
    (h₁ : exec .primetest s₁ = .next t₁) (h₂ : exec .primetest s₂ = .next t₂) : SameOutcome .primetest t₁ t₂ := by
  obtain ⟨hn, hk⟩ : s₁.n = s₂.n ∧ s₁.k.toNat = s₂.k.toNat := by
    simpa only [readsOf, List.forall_mem_cons, readPlace, readReg, List.not_mem_nil, false_implies, implies_true,
      and_true] using hreads
  simp only [exec, execPrimetest] at h₁ h₂
  rw [← hn, ← hk, ← hwords, ← hwaiting] at h₂
  by_cases hlt : s₁.n < 2
  · rw [if_pos hlt] at h₁ h₂
    exact sameOutcome_of_raise h₁ h₂
  · rw [if_neg hlt] at h₁ h₂
    cases h₁; cases h₂
    exact endTrials_sameOutcome hb₁ hb₂ herr _

/-- Settles O11, command by command: the commands that write `RES` share one argument. -/
theorem outcomeDependsOnlyOnOperandsRead : Obligations.OutcomeDependsOnlyOnOperandsRead := by
  unfold Obligations.OutcomeDependsOnlyOnOperandsRead
  intro i s₁ s₂ t₁ t₂ hb₁ hb₂ he₁ he₂ hreads hsource h₁ h₂
  have herr : s₁.errcode = s₂.errcode := he₁.trans he₂.symm
  change SameOutcome i t₁ t₂
  cases i with
  | modmul => exact exec_residue_sameOutcome (.inl rfl) herr hreads h₁ h₂
  | modexp => exact exec_residue_sameOutcome (.inr (.inl rfl)) herr hreads h₁ h₂
  | egcd => exact exec_egcd_sameOutcome herr hreads h₁ h₂
  | modinv => exact exec_residue_sameOutcome (.inr (.inr rfl)) herr hreads h₁ h₂
  | primetest =>
    obtain ⟨hwords, hwaiting⟩ := hsource rfl
    exact exec_primetest_sameOutcome hb₁ hb₂ herr hreads hwords hwaiting h₁ h₂

end Sys2Proof.Machine
end

section
/-! PROOFS, the sequencer and the invariant (spec 10_state.md): the kinds of step and what each leaves alone (R28 to
R34), the status words (R27, R29), and the invariant of the block's states (R20, R23, R27, R66, R113, R186). -/

namespace Sys2Proof.Machine

open Sys2Proof

/-! ### The core's move -/

/-- A command word decodes to its own command only (spec 30_encoding.md R71, R80). -/
theorem eq_encode_of_decode {w : Word} {i : Instr} (h : decode w = .command i) : w = encode i := by
  have hnum : ∀ {k : Nat}, w.toNat = k → w = BitVec.ofNat 32 k := by
    rintro k rfl
    simp
  rw [decode_toNat] at h
  split at h
  · split at h <;> cases h <;> exact hnum ‹_›
  · cases h

/-- At rest the core's move changes nothing (spec R34). -/
theorem coreMove_rest {s : State} (h : s.state ≠ .busy) : coreMove s = .next s := if_neg h

/-- In a BUSY state the core's move is the meaning of the command in `CMD` (spec R32). -/
theorem coreMove_command {s : State} {i : Instr} (hb : s.state = .busy) (hd : decode s.cmd = .command i) :
    coreMove s = exec i s := by
  unfold coreMove fetch
  rw [if_pos hb, hd]

/-- Settles O4: on the core's turn a step is the core's move, and that runs the decoded command. -/
theorem stepRunsTheDecodedCommand : Obligations.StepRunsTheDecodedCommand := by
  unfold Obligations.StepRunsTheDecodedCommand
  intro s i rest hb hd hturn
  rw [step_coreTurn hturn]
  exact coreMove_command hb hd

/-- Settles O8: on the core's turn a step is the core's move, and outside BUSY that is rest. -/
theorem coreRestsWhenNotBusy : Obligations.CoreRestsWhenNotBusy := by
  unfold Obligations.CoreRestsWhenNotBusy
  intro s rest hb hturn
  rw [step_coreTurn hturn]
  exact coreMove_rest hb

/-- A whole command word placed by `withFetchWord` is the state after its accept, the core to move next. -/
theorem withFetchWord_toNat (s : State) (w : Word) :
    s.withFetchWord 32 w.toNat = { accept w s with sched := .core :: s.sched } := by
  have hw : BitVec.ofNat 32 (w.toNat % 2 ^ 32) = w := by
    rw [Nat.mod_eq_of_lt w.isLt, BitVec.ofNat_toNat, BitVec.setWidth_eq]
  unfold State.withFetchWord
  rw [hw]

/-- Settles O5: the state after the accept is BUSY with the core's turn, so O4 gives the step. -/
theorem placedCommandRunsNext : Obligations.PlacedCommandRunsNext := by
  unfold Obligations.PlacedCommandRunsNext
  intro s i
  rw [withFetchWord_toNat]
  exact stepRunsTheDecodedCommand { accept (encode i) s with sched := .core :: s.sched } i s.sched rfl (decode_encode i)
    (.inr rfl)

/-! ### The kinds of step -/

/-- `t` differs from `s` in the environment's fields and OVR alone, OVR only while BUSY, and the words at hand are
those of `s` or one word of W bits: what a read, a refused or dropped write, a poll and a random word can do. -/
def KeepsRegisters (s t : State) : Prop :=
  ∃ (o : Bool) (ws : List Nat) (sc : List Event) (rp : Option BusResp),
    t = { s with ovr := o, words := ws, sched := sc, resp := rp } ∧
    (s.state ≠ .busy → o = s.ovr) ∧ (ws = s.words ∨ ∃ r, ws = [r % 2 ^ (32 * s.limbs)])

/-- The schedule and the response are not the block's. -/
theorem keepsRegisters_sched_resp (s : State) (sc : List Event) (rp : Option BusResp) :
    KeepsRegisters s { s with sched := sc, resp := rp } :=
  ⟨s.ovr, s.words, sc, rp, rfl, fun _ => rfl, .inl rfl⟩

/-- An answer writes at most the words at hand (spec 20_memory.md R66). -/
theorem keepsRegisters_answer (r : Nat) (s : State) (sc : List Event) :
    KeepsRegisters s (answerRandom r { s with sched := sc }) := by
  rcases answerRandom_cases r { s with sched := sc } with h | ⟨_, _, h⟩
  · rw [h]
    exact keepsRegisters_sched_resp s sc s.resp
  · rw [h]
    exact ⟨s.ovr, _, sc, s.resp, rfl, fun _ => rfl, .inr ⟨r, rfl⟩⟩

/-- The kinds of step as the block sees them: the core's turn, a write that takes effect, reset, and everything else,
which keeps the registers. -/
theorem step_kinds {s t : State} (h : step s = .next t) :
    (∃ rest, CoreTurn s rest ∧ coreMove { s with sched := rest } = .next t) ∨
    (s.state ≠ .busy ∧ ∃ off v rest loc, s.sched = .access (.write off 4 v) :: rest ∧
      locate s.limbs off = some loc ∧ writable loc = true ∧
      t = { writeLocation { s with sched := rest } v loc with resp := some .ok }) ∨
    (∃ rest, s.sched = .reset :: rest ∧ t = resetBlock { s with sched := rest }) ∨
    KeepsRegisters s t := by
  rcases step_cases h with hcore | ⟨off, size, rest, _, rfl⟩ | ⟨off, size, v, rest, hs, rfl⟩ | ⟨r, rest, _, rfl⟩ |
    hreset | ⟨rest, _, rfl⟩
  · exact .inl hcore
  · obtain ⟨rp, hread⟩ := busRead_cases off size { s with sched := rest }
    rw [hread]
    exact .inr (.inr (.inr (keepsRegisters_sched_resp s rest (some rp))))
  · rcases busWrite_cases off size v { s with sched := rest } with hw | ⟨hb, hw⟩ | ⟨hb, rfl, loc, hl, hwr, hw⟩
    · rw [hw]
      exact .inr (.inr (.inr (keepsRegisters_sched_resp s rest (some .error))))
    · rw [hw]
      exact .inr (.inr (.inr ⟨true, s.words, rest, some .ok, rfl, fun hn => absurd hb hn, .inl rfl⟩))
    · exact .inr (.inl ⟨hb, off, v, rest, loc, hs, hl, hwr, hw⟩)
  · exact .inr (.inr (.inr (keepsRegisters_answer r s rest)))
  · exact .inr (.inr (.inl hreset))
  · obtain ⟨rp, sc, hpoll⟩ := pollStatus_cases { s with sched := rest }
    rw [hpoll]
    exact .inr (.inr (.inr (keepsRegisters_sched_resp s sc (some rp))))

/-- The effect of a write to each kind of writable location (spec 20_memory.md R52, R57). -/
theorem writeLocation_cases {loc : Location} (hw : writable loc = true) (s : State) (v : Word) :
    (loc = .cmd ∧ writeLocation s v loc = accept v s) ∨
    (loc = .k ∧ writeLocation s v loc = { s with k := v }) ∨
    (∃ r j, loc = .limbOf r j ∧ isOperand r = true ∧
      writeLocation s v loc = writeReg s r (setLimb (readReg s r) j v)) := by
  cases loc with
  | cmd => exact .inl ⟨rfl, rfl⟩
  | status => cases hw
  | k => exact .inr (.inl ⟨rfl, rfl⟩)
  | rflags => cases hw
  | limbOf r j => exact .inr (.inr ⟨r, j, rfl, hw, if_pos hw⟩)

/-! ### Accept and the edges of STATE (spec R28, R31) -/

/-- A write to `CMD` outside BUSY is an accept. -/
theorem step_accept {s : State} {w : Word} {rest : List Event} (hb : s.state ≠ .busy)
    (hs : s.sched = .access (.write 0x0000 4 w) :: rest) :
    step s = .next { accept w { s with sched := rest } with resp := some .ok } := by
  rw [step_access hs]
  exact congrArg _ (busWrite_done (s := { s with sched := rest }) (locate_control s.limbs).1 rfl hb)

/-- From BUSY to BUSY a step keeps `A`, `B`, `N`, `K` and `CMD`. -/
theorem step_busy_frame {s t : State} (hb : s.state = .busy) (h : step s = .next t) (ht : t.state = .busy) :
    t.a = s.a ∧ t.b = s.b ∧ t.n = s.n ∧ t.k = s.k ∧ t.cmd = s.cmd := by
  rcases step_kinds h with ⟨rest, _, hmove⟩ | ⟨hn, _⟩ | ⟨rest, _, rfl⟩ | ⟨o, ws, sc, rp, rfl, _, _⟩
  · rcases coreMove_cases hmove with ⟨hn, _⟩ | ⟨_, i, _, hexec⟩ | ⟨_, _, rfl⟩
    · exact absurd hb hn
    · obtain ⟨ha, hb', hn, hk, hcmd, _⟩ := exec_frame hexec
      exact ⟨ha, hb', hn, hk, hcmd⟩
    · cases ht
  · exact absurd hb hn
  · cases ht
  · exact ⟨rfl, rfl, rfl, rfl, rfl⟩

/-- Settles O6: `step_accept`, and `step_busy_frame` for the frozen operands. -/
theorem acceptStartsACommand : Obligations.AcceptStartsACommand := by
  unfold Obligations.AcceptStartsACommand
  exact ⟨fun _ _ _ hb hs => step_accept hb hs, fun _ _ hb h ht => step_busy_frame hb h ht⟩

/-- The core's move out of a state changes STATE from BUSY to DONE or ERROR only. -/
theorem coreMove_state {s t : State} (h : coreMove s = .next t) (hne : t.state ≠ s.state) :
    s.state = .busy ∧ (t.state = .done ∨ t.state = .error) := by
  rcases coreMove_cases h with ⟨_, rfl⟩ | ⟨hb, i, _, hexec⟩ | ⟨hb, _, rfl⟩
  · exact absurd rfl hne
  · rcases exec_state hexec with hdone | herror | ⟨_, hsame⟩
    · exact ⟨hb, .inl hdone⟩
    · exact ⟨hb, .inr herror⟩
    · exact absurd hsame hne
  · exact ⟨hb, .inr rfl⟩

/-- Settles O7: by the kinds of step; of the writes only one to `CMD` moves STATE. -/
theorem stateMovesOnlyAlongItsEdges : Obligations.StateMovesOnlyAlongItsEdges := by
  unfold Obligations.StateMovesOnlyAlongItsEdges
  intro s t h hne
  rcases step_kinds h with ⟨rest, hturn, hmove⟩ | ⟨hb, off, v, rest, loc, hs, hl, hwr, rfl⟩ | ⟨rest, hs, rfl⟩ |
    ⟨o, ws, sc, rp, rfl, _, _⟩
  · obtain ⟨hb, hend⟩ := coreMove_state hmove hne
    exact .inr (.inl ⟨hb, hend, rest, hturn⟩)
  · rcases writeLocation_cases hwr { s with sched := rest } v with ⟨rfl, hw⟩ | ⟨_, hw⟩ | ⟨r, j, _, _, hw⟩
    · obtain rfl := locate_cmd hl
      exact .inl ⟨hb, by rw [hw]; rfl, v, rest, hs⟩
    · rw [hw] at hne
      exact absurd rfl hne
    · rw [hw] at hne
      exact absurd (writeReg_state _ _ _) hne
  · exact .inr (.inr ⟨rfl, rest, hs⟩)
  · exact absurd rfl hne

/-! ### The results of EGCD (spec R24) -/

/-- `t` has the Bezout results of `s`. -/
def SameBezoutResults (s t : State) : Prop :=
  t.rx = s.rx ∧ t.ry = s.ry ∧ t.rg = s.rg ∧ t.xneg = s.xneg ∧ t.yneg = s.yneg

/-- The end of a run of trials writes no Bezout result. -/
theorem endTrials_sameBezoutResults (s : State) (r : TrialRun) : SameBezoutResults s (endTrials s r) := by
  cases r <;> exact ⟨rfl, rfl, rfl, rfl, rfl⟩

/-- No command but EGCD writes the Bezout results. -/
theorem exec_sameBezoutResults {i : Instr} {s t : State} (hi : i ≠ .egcd) (h : exec i s = .next t) :
    SameBezoutResults s t := by
  rcases exec_cases h with ⟨c, _, rfl⟩ | ⟨v, _, _, rfl⟩ | ⟨he, _⟩ | ⟨_, _, rfl⟩
  · exact ⟨rfl, rfl, rfl, rfl, rfl⟩
  · exact ⟨rfl, rfl, rfl, rfl, rfl⟩
  · exact absurd he hi
  · exact endTrials_sameBezoutResults s _

/-- The core's move writes the Bezout results only in EGCD. -/
theorem coreMove_sameBezoutResults {s t : State} (h : coreMove s = .next t)
    (hi : ¬ (s.state = .busy ∧ decode s.cmd = .command .egcd)) : SameBezoutResults s t := by
  rcases coreMove_cases h with ⟨_, rfl⟩ | ⟨hb, i, hd, hexec⟩ | ⟨_, _, rfl⟩
  · exact ⟨rfl, rfl, rfl, rfl, rfl⟩
  · refine exec_sameBezoutResults ?_ hexec
    rintro rfl
    exact hi ⟨hb, hd⟩
  · exact ⟨rfl, rfl, rfl, rfl, rfl⟩

/-- A host write reaches no Bezout result, which are not operands (spec R20). -/
theorem writeLocation_sameBezoutResults {loc : Location} (hw : writable loc = true) (s : State) (v : Word) :
    SameBezoutResults s (writeLocation s v loc) := by
  rcases writeLocation_cases hw s v with ⟨_, h⟩ | ⟨_, h⟩ | ⟨r, j, _, hr, h⟩
  · rw [h]; exact ⟨rfl, rfl, rfl, rfl, rfl⟩
  · rw [h]; exact ⟨rfl, rfl, rfl, rfl, rfl⟩
  · rw [h]
    cases r with
    | a => exact ⟨rfl, rfl, rfl, rfl, rfl⟩
    | b => exact ⟨rfl, rfl, rfl, rfl, rfl⟩
    | n => exact ⟨rfl, rfl, rfl, rfl, rfl⟩
    | _ => cases hr

/-- Settles O13: by the kinds of step; reset and the core's EGCD are the ones left out. -/
theorem bezoutResultsChangeOnlyByEgcd : Obligations.BezoutResultsChangeOnlyByEgcd := by
  unfold Obligations.BezoutResultsChangeOnlyByEgcd
  intro s t h hreset hegcd
  change SameBezoutResults s t
  rcases step_kinds h with ⟨rest, hturn, hmove⟩ | ⟨_, off, v, rest, loc, _, _, hwr, rfl⟩ | ⟨rest, hs, _⟩ |
    ⟨o, ws, sc, rp, rfl, _, _⟩
  · have hne : ¬ (s.state = .busy ∧ decode s.cmd = .command .egcd) := fun ⟨hb, hd⟩ => hegcd ⟨hb, hd, rest, hturn⟩
    exact coreMove_sameBezoutResults (s := { s with sched := rest }) hmove hne
  · exact writeLocation_sameBezoutResults hwr { s with sched := rest } v
  · exact absurd hs (hreset rest)
  · exact ⟨rfl, rfl, rfl, rfl, rfl⟩

/-! ### The status words (spec R27, R29) -/

/-- Fields written side by side, as a number. -/
theorem toNat_append_eq_add {m n : Nat} (x : BitVec m) (y : BitVec n) :
    (x ++ y).toNat = x.toNat * 2 ^ n + y.toNat := by
  rw [BitVec.toNat_append, ← Nat.shiftLeft_add_eq_or_of_lt y.isLt, Nat.shiftLeft_eq]

/-- `STATUS` as a number: its three fields in their places. -/
theorem statusWord_toNat (s : State) :
    (statusWord s).toNat = (stateBits s.state).toNat + 16 * (errBits s.errcode).toNat + 256 * s.ovr.toNat := by
  simp only [statusWord, toNat_append_eq_add, BitVec.toNat_ofNat, BitVec.toNat_ofBool]
  omega

/-- `RFLAGS` as a number: its three flags in their places. -/
theorem rflagsWord_toNat (s : State) :
    (rflagsWord s).toNat = s.verdict.toNat + 2 * s.xneg.toNat + 4 * s.yneg.toNat := by
  simp only [rflagsWord, toNat_append_eq_add, BitVec.toNat_ofNat, BitVec.toNat_ofBool]
  omega

/-- Settles O14: the words as numbers, and the codes of the spec. -/
theorem statusAndFlagWordLayout : Obligations.StatusAndFlagWordLayout := by
  unfold Obligations.StatusAndFlagWordLayout
  refine fun s => ⟨?_, rflagsWord_toNat s⟩
  rw [statusWord_toNat]
  congr 2
  · cases s.state <;> rfl
  · rcases s.errcode with _ | c
    · rfl
    · cases c <;> rfl

/-- Settles O51: each register by its value in `State.resetAt`. -/
theorem resetRegisterValues : Obligations.ResetRegisterValues := by
  unfold Obligations.ResetRegisterValues
  refine ⟨rfl, ?_⟩
  rintro limbs s rfl
  have hstatus : statusWord (State.resetAt limbs) = 0 := BitVec.eq_of_toNat_eq (statusWord_toNat _)
  have hflags : rflagsWord (State.resetAt limbs) = 0 := BitVec.eq_of_toNat_eq (rflagsWord_toNat _)
  exact ⟨fun r => by cases r <;> rfl, rfl, rfl, rfl, rfl, rfl, hstatus, rfl, rfl, rfl, hflags⟩

/-! ### The invariant after reset (spec R37) -/

/-- Reset values with any words of the port's width meet the invariant. -/
theorem inv_resetAt_words {limbs : Nat} {ws : List Nat} (hL : Config.limbsWf limbs = true)
    (hws : ∀ r ∈ ws, r < 2 ^ (32 * limbs)) (sc : List Event) (rp : Option BusResp) :
    Inv { State.resetAt limbs with words := ws, sched := sc, resp := rp } where
  width := hL
  ranges r := by cases r <;> exact Nat.two_pow_pos _
  errcodeIffError := by simp
  xnegNonzero h := by cases h
  ynegNonzero h := by cases h
  idleFresh _ := ⟨rfl, rfl, rfl, rfl, rfl, rfl, rfl, rfl, rfl⟩
  wordsInRange := hws
  waitingLegal t h := by cases h

/-- Settles O16: the reset state has no words at hand. -/
theorem resetMeetsTheInvariant : Obligations.ResetMeetsTheInvariant := by
  unfold Obligations.ResetMeetsTheInvariant
  have hall : ∀ limbs : Nat, Config.limbsWf limbs = true → Inv (State.resetAt limbs) :=
    fun limbs hL => inv_resetAt_words hL (fun r hr => absurd hr List.not_mem_nil) [] none
  exact ⟨hall, hall Config.resetLimbs (by decide)⟩

/-- Reset leads into the invariant: the words it keeps are among those at hand. -/
theorem inv_resetBlock {s : State} (h : Inv s) : Inv (resetBlock s) := by
  refine inv_resetAt_words h.width (fun r hr => h.wordsInRange r ?_) s.sched s.resp
  unfold wordsAfterReset at hr
  split at hr
  · exact List.mem_of_mem_drop hr
  · exact hr

/-! ### The invariant and the host's side -/

/-- Outside BUSY no random-word request is outstanding. -/
theorem inv_waiting_none {s : State} (h : Inv s) (hb : s.state ≠ .busy) : s.waiting = none := by
  rcases hw : s.waiting with _ | t
  · rfl
  · exact absurd (h.waitingLegal t hw).1 hb

/-- While BUSY there is no error code. -/
theorem inv_errcode_none {s : State} (h : Inv s) (hb : s.state = .busy) : s.errcode = none := by
  rcases he : s.errcode with _ | c
  · rfl
  · have herr : s.state = .error := h.errcodeIffError.1 (by rw [he]; rfl)
    rw [hb] at herr
    cases herr

/-- A step that keeps the registers keeps the invariant. -/
theorem inv_of_keepsRegisters {s t : State} (h : Inv s) (hk : KeepsRegisters s t) : Inv t := by
  obtain ⟨o, ws, sc, rp, rfl, ho, hws⟩ := hk
  have hmod : ∀ r : Nat, r % 2 ^ (32 * s.limbs) < 2 ^ (32 * s.limbs) := fun r => Nat.mod_lt _ (Nat.two_pow_pos _)
  refine ⟨h.width, h.ranges, h.errcodeIffError, h.xnegNonzero, h.ynegNonzero, fun hi => ?_, ?_, fun t ht => ?_⟩
  · have hovr : o = s.ovr := ho (by rw [show s.state = .idle from hi]; decide)
    rw [hovr]
    exact h.idleFresh hi
  · rcases hws with rfl | ⟨r, rfl⟩
    · exact h.wordsInRange
    · simpa using hmod r
  · obtain ⟨hb, hcmd, hn, hlt, hlen⟩ := h.waitingLegal t ht
    refine ⟨hb, hcmd, hn, hlt, ?_⟩
    rcases hws with rfl | ⟨r, rfl⟩
    · exact hlen
    · exact le_rfl

/-- An accept leads into the invariant from every state that has it. -/
theorem inv_accept {s : State} (h : Inv s) (w : Word) : Inv (accept w s) where
  width := h.width
  ranges := h.ranges
  errcodeIffError := by simp
  xnegNonzero := h.xnegNonzero
  ynegNonzero := h.ynegNonzero
  idleFresh hi := by cases hi
  wordsInRange := h.wordsInRange
  waitingLegal t ht := by cases ht

/-- Outside BUSY the trial count may be anything. -/
theorem inv_write_k {s : State} (h : Inv s) (hb : s.state ≠ .busy) (v : Word) : Inv { s with k := v } where
  width := h.width
  ranges := h.ranges
  errcodeIffError := h.errcodeIffError
  xnegNonzero := h.xnegNonzero
  ynegNonzero := h.ynegNonzero
  idleFresh := h.idleFresh
  wordsInRange := h.wordsInRange
  waitingLegal t ht := absurd ((inv_waiting_none h hb).symm.trans ht) (by simp)

/-- Outside BUSY an operand register may be anything in its range. -/
theorem inv_writeReg_operand {s : State} (h : Inv s) (hb : s.state ≠ .busy) {r : DataReg} (hr : isOperand r = true)
    {v : Nat} (hv : v < 2 ^ (32 * s.limbs)) : Inv (writeReg s r v) := by
  have hkeep : ∀ q : DataReg, isOperand q = false → readReg (writeReg s r v) q = readReg s q := by
    intro q hq
    refine readReg_writeReg_ne s v ?_
    rintro rfl
    rw [hr] at hq
    cases hq
  have hres : (writeReg s r v).res = s.res := hkeep .res rfl
  have hrx : (writeReg s r v).rx = s.rx := hkeep .rx rfl
  have hry : (writeReg s r v).ry = s.ry := hkeep .ry rfl
  have hrg : (writeReg s r v).rg = s.rg := hkeep .rg rfl
  constructor
  case ranges =>
    intro q
    rw [writeReg_limbs]
    by_cases hq : q = r
    · rw [hq, readReg_writeReg_self]
      exact hv
    · rw [readReg_writeReg_ne s v hq]
      exact h.ranges q
  case waitingLegal =>
    intro t ht
    rw [writeReg_waiting, inv_waiting_none h hb] at ht
    cases ht
  all_goals simp only [hres, hrx, hry, hrg, writeReg_limbs, writeReg_errcode, writeReg_state, writeReg_xneg,
    writeReg_yneg, writeReg_verdict, writeReg_cmd, writeReg_ovr, writeReg_words]
  · exact h.width
  · exact h.errcodeIffError
  · exact h.xnegNonzero
  · exact h.ynegNonzero
  · exact h.idleFresh
  · exact h.wordsInRange

/-- The limb of a mapped location is a limb of the register. -/
theorem locate_limb_lt {L off : Nat} {r : DataReg} {j : Nat} (h : locate L off = some (.limbOf r j)) : j < L := by
  rcases locate_some h with ⟨hl, _⟩ | ⟨hl, _⟩ | ⟨hl, _⟩ | ⟨hl, _⟩ | ⟨_, _, hl, hj, _⟩
  · cases hl
  · cases hl
  · cases hl
  · cases hl
  · cases hl
    exact hj

/-- A host write that takes effect keeps the invariant (spec 20_memory.md R53, R57). -/
theorem inv_writeLocation {s : State} {off : Nat} {loc : Location} (h : Inv s) (hb : s.state ≠ .busy)
    (hl : locate s.limbs off = some loc) (hw : writable loc = true) (v : Word) : Inv (writeLocation s v loc) := by
  rcases writeLocation_cases hw s v with ⟨_, he⟩ | ⟨_, he⟩ | ⟨r, j, rfl, hr, he⟩
  · rw [he]
    exact inv_accept h v
  · rw [he]
    exact inv_write_k h hb v
  · rw [he]
    exact inv_writeReg_operand h hb hr (setLimb_lt (h.ranges r) (locate_limb_lt hl))

/-! ### The invariant and the results of a command -/

/-- R113, the plain bounds: the triple of `egcd(a, b)` is no larger than its operands or 1. -/
theorem egcdDefines_bounds {a b : Nat} {x y : Int} {g : Nat} (h : EgcdDefines a b x y g) :
    g ≤ max a b ∧ x.natAbs ≤ max 1 b ∧ y.natAbs ≤ max 1 a := by
  induction h with
  | base a => simp
  | @recurse a b x' y' g hb h ih =>
    obtain ⟨hg, hx, hy⟩ := ih
    have hmod : a % b < b := Nat.mod_lt a hb
    refine ⟨by omega, hy, ?_⟩
    rcases Nat.eq_zero_or_pos (a % b) with h0 | hpos
    · rw [h0] at h
      cases h with
      | base => simp
      | recurse hlt => exact absurd hlt (lt_irrefl 0)
    · have hx' : x'.natAbs ≤ a % b := by omega
      have hy' : y'.natAbs ≤ b := by omega
      have hle : (x' - y' * ((a / b : Nat) : Int)).natAbs ≤ a :=
        calc (x' - y' * ((a / b : Nat) : Int)).natAbs
            ≤ x'.natAbs + (y' * ((a / b : Nat) : Int)).natAbs := Int.natAbs_sub_le _ _
          _ = x'.natAbs + y'.natAbs * (a / b) := by rw [Int.natAbs_mul, Int.natAbs_natCast]
          _ ≤ a % b + b * (a / b) := Nat.add_le_add hx' (Nat.mul_le_mul_right _ hy')
          _ = a := Nat.mod_add_div a b
      omega

/-- R113: the triple of operands of W bits fits W bits. -/
theorem egcd_fits {a b W : Nat} (hW : 1 ≤ W) (ha : a < 2 ^ W) (hb : b < 2 ^ W) :
    (egcd a b).x.natAbs < 2 ^ W ∧ (egcd a b).y.natAbs < 2 ^ W ∧ (egcd a b).g < 2 ^ W := by
  obtain ⟨hg, hx, hy⟩ := egcdDefines_bounds (egcd_defines a b)
  have h1 : 1 < 2 ^ W := Nat.one_lt_two_pow (by omega)
  omega

/-- A negative number has a nonzero magnitude: its sign flag is no negative zero (spec R23). -/
theorem natAbs_ne_zero_of_signFlag {x : Int} (h : signFlag x = true) : x.natAbs ≠ 0 := by
  have hneg : x < 0 := of_decide_eq_true h
  omega

/-- Ending a command in DONE keeps the invariant. -/
theorem inv_commit {s : State} (h : Inv s) (hb : s.state = .busy) : Inv (commit s) where
  width := h.width
  ranges := h.ranges
  errcodeIffError := by simp [inv_errcode_none h hb]
  xnegNonzero := h.xnegNonzero
  ynegNonzero := h.ynegNonzero
  idleFresh hi := by cases hi
  wordsInRange := h.wordsInRange
  waitingLegal t ht := by cases ht

/-- Ending a command in ERROR keeps the invariant (spec 60_exceptions.md R155). -/
theorem inv_raise {s : State} (h : Inv s) (c : ErrCode) :
    Inv { s with errcode := some c, state := .error, waiting := none } where
  width := h.width
  ranges := h.ranges
  errcodeIffError := by simp
  xnegNonzero := h.xnegNonzero
  ynegNonzero := h.ynegNonzero
  idleFresh hi := by cases hi
  wordsInRange := h.wordsInRange
  waitingLegal t ht := by cases ht

/-- While BUSY, `RES` may be anything in its range. -/
theorem inv_write_res {s : State} (h : Inv s) (hb : s.state = .busy) {v : Nat} (hv : v < 2 ^ (32 * s.limbs)) :
    Inv { s with res := v } where
  width := h.width
  ranges r := by
    cases r with
    | res => exact hv
    | a => exact h.ranges .a
    | b => exact h.ranges .b
    | n => exact h.ranges .n
    | rx => exact h.ranges .rx
    | ry => exact h.ranges .ry
    | rg => exact h.ranges .rg
  errcodeIffError := h.errcodeIffError
  xnegNonzero := h.xnegNonzero
  ynegNonzero := h.ynegNonzero
  idleFresh hi := by rw [show s.state = .idle from hi] at hb; cases hb
  wordsInRange := h.wordsInRange
  waitingLegal := h.waitingLegal

/-- While BUSY, storing a Bezout result that fits keeps the invariant. -/
theorem inv_storeBezout {s : State} (h : Inv s) (hb : s.state = .busy) {z : Bezout}
    (hx : z.x.natAbs < 2 ^ (32 * s.limbs)) (hy : z.y.natAbs < 2 ^ (32 * s.limbs)) (hg : z.g < 2 ^ (32 * s.limbs)) :
    Inv (storeBezout z s) where
  width := h.width
  ranges r := by
    cases r with
    | res => exact h.ranges .res
    | a => exact h.ranges .a
    | b => exact h.ranges .b
    | n => exact h.ranges .n
    | rx => exact hx
    | ry => exact hy
    | rg => exact hg
  errcodeIffError := h.errcodeIffError
  xnegNonzero := natAbs_ne_zero_of_signFlag
  ynegNonzero := natAbs_ne_zero_of_signFlag
  idleFresh hi := by rw [storeBezout_state, hb] at hi; cases hi
  wordsInRange := h.wordsInRange
  waitingLegal := h.waitingLegal

/-- A verdict keeps the invariant: the words left are among those at hand. -/
theorem inv_verdict {s : State} (h : Inv s) (hb : s.state = .busy) (p : Bool) {pre rest : List Nat}
    (hws : s.words = pre ++ rest) : Inv (commit { s with verdict := p, words := rest }) where
  width := h.width
  ranges := h.ranges
  errcodeIffError := by simp [inv_errcode_none h hb]
  xnegNonzero := h.xnegNonzero
  ynegNonzero := h.ynegNonzero
  idleFresh hi := by cases hi
  wordsInRange r hr := h.wordsInRange r (by rw [hws]; exact List.mem_append_right pre hr)
  waitingLegal t ht := by cases ht

/-- A starved PRIMETEST keeps the invariant: its request is legal (spec 20_memory.md R66, 44_primetest.md R138). -/
theorem inv_starved {s : State} (h : Inv s) (hb : s.state = .busy) (hcmd : s.cmd = encode .primetest) (hn : 2 ≤ s.n)
    {t : Nat} (ht : t < s.k.toNat) : Inv { s with waiting := some t, words := [] } where
  width := h.width
  ranges := h.ranges
  errcodeIffError := h.errcodeIffError
  xnegNonzero := h.xnegNonzero
  ynegNonzero := h.ynegNonzero
  idleFresh hi := by rw [show s.state = .idle from hi] at hb; cases hb
  wordsInRange r hr := by cases hr
  waitingLegal u hu := by
    cases hu
    exact ⟨hb, hcmd, hn, ht, Nat.zero_le 1⟩

/-- Every command in execution keeps the invariant. -/
theorem inv_exec {i : Instr} {s t : State} (h : Inv s) (hb : s.state = .busy) (hd : decode s.cmd = .command i)
    (hexec : exec i s = .next t) : Inv t := by
  rcases exec_cases hexec with ⟨c, _, rfl⟩ | ⟨v, hv, _, rfl⟩ | ⟨_, rfl⟩ | ⟨rfl, hn, rfl⟩
  · exact inv_raise h c
  · have hres : Inv { s with res := v } := inv_write_res h hb (hv.trans (h.ranges .n))
    exact inv_commit hres hb
  · have hW : 1 ≤ 32 * s.limbs := by have := ((limbsWf_iff _).1 h.width).1; omega
    obtain ⟨hx, hy, hg⟩ := egcd_fits hW (h.ranges .a) (h.ranges .b)
    exact inv_commit (inv_storeBezout h hb hx hy hg) hb
  · rcases runTrials_cases s.n s.k.toNat (s.waiting.getD 0) s.words with ⟨p, rest, hrun, pre, hws⟩ | ⟨u, hrun, _, hu⟩
    · rw [hrun]
      exact inv_verdict h hb p hws
    · rw [hrun]
      exact inv_starved h hb (eq_encode_of_decode hd) hn hu

/-- The core's move keeps the invariant. -/
theorem inv_coreMove {s t : State} (h : Inv s) (hmove : coreMove s = .next t) : Inv t := by
  rcases coreMove_cases hmove with ⟨_, rfl⟩ | ⟨hb, i, hd, hexec⟩ | ⟨_, _, rfl⟩
  · exact h
  · exact inv_exec h hb hd hexec
  · exact inv_raise h .illegalCommand

/-- Settles O15: by the kinds of step, each with its own lemma above. -/
theorem everyStepKeepsTheInvariant : Obligations.EveryStepKeepsTheInvariant := by
  unfold Obligations.EveryStepKeepsTheInvariant
  intro s t h hstep
  have hsched : ∀ rest, Inv { s with sched := rest } :=
    fun rest => inv_of_keepsRegisters h (keepsRegisters_sched_resp s rest s.resp)
  rcases step_kinds hstep with ⟨rest, _, hmove⟩ | ⟨hb, off, v, rest, loc, _, hl, hwr, rfl⟩ | ⟨rest, _, rfl⟩ | hkeep
  · exact inv_coreMove (hsched rest) hmove
  · have hwrite : Inv (writeLocation { s with sched := rest } v loc) := inv_writeLocation (hsched rest) hb hl hwr v
    exact inv_of_keepsRegisters hwrite (keepsRegisters_sched_resp _ _ (some .ok))
  · exact inv_resetBlock (hsched rest)
  · exact inv_of_keepsRegisters h hkeep

end Sys2Proof.Machine
end

section
/-! PROOFS, the register window and the random-word port (spec 20_memory.md): refused accesses (R55), reads (R52, R53,
R56), dropped writes (R58), writes that take effect (R53, R57), and the random words (R66). -/

namespace Sys2Proof.Machine

open Sys2Proof

/-! ### The schedule is no register of the window -/

@[simp] theorem readReg_sched (s : State) (sc : List Event) (r : DataReg) :
    readReg { s with sched := sc } r = readReg s r := by
  cases r <;> rfl

@[simp] theorem readLocation_sched (s : State) (sc : List Event) (loc : Location) :
    readLocation { s with sched := sc } loc = readLocation s loc := by
  cases loc with
  | limbOf r j => exact congrArg (limb · j) (readReg_sched s sc r)
  | _ => rfl

@[simp] theorem writeReg_sched_update (s : State) (sc : List Event) (r : DataReg) (v : Nat) :
    writeReg { s with sched := sc } r v = { writeReg s r v with sched := sc } := by
  cases r <;> rfl

/-! ### Refused accesses (spec R55) -/

/-- An offset the table of R52 does not list is not on the map. -/
theorem locate_none_of_not_mapped {L off : Nat} (hL : Config.limbsWf L = true) (h : off % 4 ≠ 0 ∨ ¬ Mapped L off) :
    locate L off = none :=
  (locate_none_iff L off ((limbsWf_iff L).1 hL).2).2 h

/-- What the map gives at an offset that may not be written is a read-only location. -/
theorem writable_false_of_not_mappedWritable {L off : Nat} {loc : Location} (hL : Config.limbsWf L = true)
    (h : off % 4 ≠ 0 ∨ ¬ MappedWritable L off) (hl : locate L off = some loc) : writable loc = false := by
  rcases h with hmis | hro
  · rw [locate_none_of_not_mapped hL (.inl hmis)] at hl
    cases hl
  · rw [← Bool.not_eq_true]
    exact fun hw => hro ((writable_iff L off ((limbsWf_iff L).1 hL).2).1 ⟨loc, hl, hw⟩)

/-- Settles O18: the three reasons of R55 are the ones for which the map gives nothing, or nothing writable. -/
theorem refusedAccessChangesNothing : Obligations.RefusedAccessChangesNothing := by
  unfold Obligations.RefusedAccessChangesNothing
  refine fun s off size v rest hL => ⟨fun h hs => ?_, fun h hs => ?_⟩
  · rw [step_access hs]
    exact congrArg _ (busRead_none (s := { s with sched := rest }) (h.imp_right (locate_none_of_not_mapped hL)))
  · rw [step_access hs]
    exact congrArg _ (busWrite_refused (s := { s with sched := rest })
      (h.imp_right fun hoff _ hl => writable_false_of_not_mappedWritable hL hoff hl))

/-! ### Reads (spec R52, R53, R56) -/

/-- A read of a mapped word is answered with its current value. -/
theorem step_read {s : State} {off : Nat} {rest : List Event} {loc : Location}
    (hs : s.sched = .access (.read off 4) :: rest) (hl : locate s.limbs off = some loc) :
    step s = .next { s with sched := rest, resp := some (.data (readLocation s loc)) } := by
  rw [step_access hs, ← readLocation_sched s rest loc]
  exact congrArg _ (busRead_some (s := { s with sched := rest }) hl)

/-- Settles O19: `step_read` at each location of the map. -/
theorem readsReturnTheMappedWord : Obligations.ReadsReturnTheMappedWord := by
  unfold Obligations.ReadsReturnTheMappedWord
  intro s off rest hs
  obtain ⟨hcmd, hstatus, hk, hrflags⟩ := locate_control s.limbs
  refine ⟨?_, ?_, ?_, ?_, ?_⟩
  · rintro rfl
    exact step_read hs hcmd
  · rintro rfl
    exact step_read hs hstatus
  · rintro rfl
    exact step_read hs hk
  · rintro rfl
    exact step_read hs hrflags
  · rintro r j hL hj rfl
    rw [← limb_eq]
    exact step_read hs (locate_bank r ((limbsWf_iff _).1 hL).2 hj)

/-! ### Writes while BUSY (spec R58) -/

/-- A write to a writable location while BUSY sets OVR and nothing else of the block. -/
theorem step_write_dropped {s : State} {off : Nat} {v : Word} {rest : List Event} (hL : Config.limbsWf s.limbs = true)
    (hb : s.state = .busy) (hw : MappedWritable s.limbs off) (hs : s.sched = .access (.write off 4 v) :: rest) :
    step s = .next { s with ovr := true, sched := rest, resp := some .ok } := by
  obtain ⟨loc, hl, hwr⟩ := (writable_iff _ off ((limbsWf_iff _).1 hL).2).2 hw
  rw [step_access hs]
  exact congrArg _ (busWrite_dropped (s := { s with sched := rest }) hl hwr hb)

/-- Reset at the head of the schedule. -/
theorem step_reset {s : State} {rest : List Event} (hs : s.sched = .reset :: rest) :
    step s = .next (resetBlock { s with sched := rest }) := by
  unfold step runNext
  rw [hs]
  rfl

/-- Settles O20: `step_write_dropped`; `step_accept` and `step_reset` clear OVR. -/
theorem writesWhileBusyAreDropped : Obligations.WritesWhileBusyAreDropped := by
  unfold Obligations.WritesWhileBusyAreDropped
  refine ⟨fun s off v rest => step_write_dropped, fun s t w rest hb hs h => ?_, fun s t rest hs h => ?_⟩
  · rw [step_accept hb hs] at h
    cases h
    rfl
  · rw [step_reset hs] at h
    cases h
    rfl

/-! ### Writes that take effect (spec R53, R57) -/

/-- A write outside BUSY to a writable location. -/
theorem step_write_done {s : State} {off : Nat} {v : Word} {rest : List Event} {loc : Location} (hb : s.state ≠ .busy)
    (hl : locate s.limbs off = some loc) (hw : writable loc = true) (hs : s.sched = .access (.write off 4 v) :: rest) :
    step s = .next { writeLocation { s with sched := rest } v loc with resp := some .ok } := by
  rw [step_access hs]
  exact congrArg _ (busWrite_done (s := { s with sched := rest }) hl hw hb)

/-- A write outside BUSY to a limb of an operand register. -/
theorem step_write_limb {s : State} {r : DataReg} {j : Nat} {v : Word} {rest : List Event}
    (hL : Config.limbsWf s.limbs = true) (hb : s.state ≠ .busy) (hr : isOperand r = true) (hj : j < s.limbs)
    (hs : s.sched = .access (.write (0x400 * (regIndex r + 1) + 4 * j) 4 v) :: rest) :
    step s = .next { writeReg s r (setLimb (readReg s r) j v) with sched := rest, resp := some .ok } := by
  rw [step_write_done hb (locate_bank r ((limbsWf_iff _).1 hL).2 hj) hr hs]
  simp [writeLocation, hr]

/-- The defining equation of a limb write, without subtraction. -/
theorem setLimb_add (x j : Nat) (v : Word) :
    setLimb x j v + x / 2 ^ (32 * j) % 2 ^ 32 * 2 ^ (32 * j) = x + v.toNat * 2 ^ (32 * j) := by
  have hle := limb_mul_le x j
  unfold setLimb
  rw [← limb_toNat]
  omega

/-- A limb write keeps what is below the limb. -/
theorem setLimb_mod (x j : Nat) (v : Word) : setLimb x j v % 2 ^ (32 * j) = x % 2 ^ (32 * j) := by
  rw [setLimb_split, Nat.add_mul_mod_self_left, Nat.mod_mod]

/-- From the limb up, a limb write leaves the new limb and what was above it. -/
theorem setLimb_div (x j : Nat) (v : Word) :
    setLimb x j v / 2 ^ (32 * j) = v.toNat + 2 ^ 32 * (x / 2 ^ (32 * j) / 2 ^ 32) := by
  have hpos : 0 < 2 ^ (32 * j) := Nat.two_pow_pos _
  rw [setLimb_split, Nat.add_mul_div_left _ _ hpos, Nat.div_eq_of_lt (Nat.mod_lt x hpos), Nat.zero_add]

/-- The written limb is the written word. -/
theorem limb_setLimb_self (x j : Nat) (v : Word) : limb (setLimb x j v) j = v := by
  apply BitVec.eq_of_toNat_eq
  rw [limb_toNat, setLimb_div, Nat.add_mul_mod_self_left, Nat.mod_eq_of_lt v.isLt]

/-- A limb below bit 32·j is a limb of what is below that bit. -/
theorem limb_mod {x i j : Nat} (h : i < j) : limb (x % 2 ^ (32 * j)) i = limb x i := by
  apply BitVec.eq_of_toNat_eq
  obtain ⟨d, rfl⟩ : ∃ d, j = i + (1 + d) := ⟨j - i - 1, by omega⟩
  have hdvd : 2 ^ 32 ∣ 2 ^ (32 * (1 + d)) := Nat.pow_dvd_pow 2 (by omega)
  rw [limb_toNat, limb_toNat, Nat.mul_add, pow_add, Nat.mod_mul_right_div_self, Nat.mod_mod_of_dvd _ hdvd]

/-- A limb above limb j is a limb of what is above limb j. -/
theorem limb_div (x j d : Nat) : limb (x / 2 ^ (32 * j) / 2 ^ 32) d = limb x (j + 1 + d) := by
  unfold limb
  rw [Nat.div_div_eq_div_mul, Nat.div_div_eq_div_mul, ← pow_add, ← pow_add]
  congr 3
  omega

/-- The other limbs keep their words. -/
theorem limb_setLimb_ne {x i j : Nat} (v : Word) (h : i ≠ j) : limb (setLimb x j v) i = limb x i := by
  rcases Nat.lt_or_gt_of_ne h with hlt | hgt
  · rw [← limb_mod hlt, setLimb_mod, limb_mod hlt]
  · obtain ⟨d, rfl⟩ : ∃ d, i = j + 1 + d := ⟨i - (j + 1), by omega⟩
    have habove : setLimb x j v / 2 ^ (32 * j) / 2 ^ 32 = x / 2 ^ (32 * j) / 2 ^ 32 := by
      have hv := v.isLt
      rw [setLimb_div]
      omega
    rw [← limb_div, habove, limb_div]

/-- Settles O21: the new value is `setLimb`, whose limbs are known. -/
theorem operandWriteReplacesOneLimb : Obligations.OperandWriteReplacesOneLimb := by
  unfold Obligations.OperandWriteReplacesOneLimb
  constructor
  · intro s r j v rest hL hb hr hj hs
    have hop : isOperand r = true := by rcases hr with rfl | rfl | rfl <;> rfl
    refine ⟨setLimb (readReg s r) j v, step_write_limb hL hb hop hj hs, setLimb_add _ j v, ?_, fun i hi => ?_⟩
    · rw [← limb_toNat, limb_setLimb_self]
    · rw [← limb_toNat, ← limb_toNat, limb_setLimb_ne v hi]
  · intro s v rest hb hs
    exact step_write_done hb (locate_control s.limbs).2.2.1 rfl hs

/-! ### Random words (spec R66) -/

/-- An answer of the random source at the head of the schedule. -/
theorem step_answer {s : State} {r : Nat} {rest : List Event} (hs : s.sched = .answer r :: rest) :
    step s = .next (answerRandom r { s with sched := rest }) := by
  unfold step runNext
  rw [hs]
  rfl

/-- A request is unanswered when one is outstanding and no word is at hand. -/
theorem requestPending_iff (s : State) : requestPending s = true ↔ s.waiting ≠ none ∧ s.words = [] := by
  unfold requestPending
  rw [Bool.and_eq_true, Option.isSome_iff_ne_none, List.isEmpty_iff]

/-- A word of the port's width answers an unanswered request. -/
theorem answerRandom_taken {r : Nat} {s : State} (hwaiting : s.waiting ≠ none) (hwords : s.words = [])
    (hr : r < 2 ^ (32 * s.limbs)) : answerRandom r s = { s with words := [r] } := by
  unfold answerRandom
  rw [if_pos ((requestPending_iff s).2 ⟨hwaiting, hwords⟩), Nat.mod_eq_of_lt hr]

/-- A word that no request is waiting for is discarded. -/
theorem answerRandom_discarded {s : State} (h : s.waiting = none ∨ s.words ≠ []) (r : Nat) : answerRandom r s = s := by
  refine if_neg fun hpending => ?_
  obtain ⟨hwaiting, hwords⟩ := (requestPending_iff s).1 hpending
  exact h.elim hwaiting (fun hne => hne hwords)

/-- Settles O46: `answerRandom_taken` and `answerRandom_discarded`, for the answer at the head of the schedule. -/
theorem randomAnswerGoesToTheOutstandingRequest : Obligations.RandomAnswerGoesToTheOutstandingRequest := by
  unfold Obligations.RandomAnswerGoesToTheOutstandingRequest
  intro s r rest hs hr
  rw [step_answer hs]
  refine ⟨fun hwaiting hwords => ?_, fun h => ?_⟩
  · exact congrArg _ (answerRandom_taken (s := { s with sched := rest }) hwaiting hwords hr)
  · exact congrArg _ (answerRandom_discarded (s := { s with sched := rest }) h r)

/-! ### A PRIMETEST on words given in batches (spec R66, 10_state.md R32) -/

/-- A run of trials that starves goes on, with more words, from the trial it reached. -/
theorem runTrials_append {n k t u : Nat} {ws : List Nat} (h : runTrials n k t ws = .starved u) (later : List Nat) :
    runTrials n k t (ws ++ later) = runTrials n k u later := by
  induction ws generalizing t with
  | nil =>
    unfold runTrials at h
    split at h
    · cases h
    · cases h
      rfl
  | cons r rest ih =>
    rw [runTrials] at h
    rw [List.cons_append, runTrials]
    split at h
    · cases h
    · rename_i hlt
      rw [if_neg hlt]
      cases hw : witnessOf n r with
      | none =>
        simp only [hw] at h
        exact ih h
      | some w =>
        simp only [hw] at h
        by_cases hp : trialPasses n w = true
        · simp only [if_pos hp] at h ⊢
          exact ih h
        · rw [if_neg hp] at h
          cases h

/-- The end of a run of trials writes the words and the request over. -/
theorem endTrials_words_waiting (s : State) (ws : List Nat) (w : Option Nat) (r : TrialRun) :
    endTrials { s with words := ws, waiting := w } r = endTrials s r := by
  cases r <;> rfl

/-- PRIMETEST runs its trials for a candidate of at least 2. -/
theorem exec_primetest {s : State} (h : 2 ≤ s.n) :
    exec .primetest s = .next (endTrials s (runTrials s.n s.k.toNat (s.waiting.getD 0) s.words)) :=
  if_neg (Nat.not_lt.2 h)

/-- A PRIMETEST that stays BUSY is starved: it has used up its words and waits with the trials passed. -/
theorem exec_primetest_busy {s t : State} (h : exec .primetest s = .next t) (ht : t.state = .busy) :
    2 ≤ s.n ∧ ∃ u, runTrials s.n s.k.toNat (s.waiting.getD 0) s.words = .starved u ∧
      t = { s with waiting := some u, words := [] } := by
  rcases exec_cases h with ⟨c, _, rfl⟩ | ⟨v, _, hi, _⟩ | ⟨hi, _⟩ | ⟨_, hn, rfl⟩
  · cases ht
  · simp at hi
  · cases hi
  · rcases runTrials_cases s.n s.k.toNat (s.waiting.getD 0) s.words with ⟨p, rest, hrun, _⟩ | ⟨u, hrun, _⟩
    · rw [hrun] at ht
      cases ht
    · rw [hrun]
      exact ⟨hn, u, rfl, rfl⟩

/-- Settles O43: the first run starves, and `runTrials_append` takes up its trial count. -/
theorem primetestResumesWhereItWaited : Obligations.PrimetestResumesWhereItWaited := by
  unfold Obligations.PrimetestResumesWhereItWaited
  rintro s t w₁ w₂ _ rfl h ht
  obtain ⟨hn, u, hrun, rfl⟩ := exec_primetest_busy h ht
  calc exec .primetest { s with waiting := some u, words := w₂ }
      = .next (endTrials { s with waiting := some u, words := w₂ } (runTrials s.n s.k.toNat u w₂)) :=
        exec_primetest hn
    _ = .next (endTrials { s with words := s.words ++ w₂ }
          (runTrials s.n s.k.toNat (s.waiting.getD 0) (s.words ++ w₂))) := by
        rw [endTrials_words_waiting, runTrials_append hrun]
        exact congrArg _ (endTrials_words_waiting s (s.words ++ w₂) s.waiting _).symm
    _ = exec .primetest { s with words := s.words ++ w₂ } :=
        (exec_primetest (s := { s with words := s.words ++ w₂ }) hn).symm

end Sys2Proof.Machine
end

section
/-! PROOFS, encoding (spec 30_encoding.md): the command words (R70 to R73, R80), and what a command writes and raises
(R75), also as the host reads it through the window (20_memory.md R52). -/

namespace Sys2Proof.Machine

open Sys2Proof

/-! ### The command words (spec R71 to R73, R80) -/

/-- Settles O2: decode undoes encode, and `eq_encode_of_decode` says that it gives a command for no other word. -/
theorem decodeAndEncodeAgree : Obligations.DecodeAndEncodeAgree := by
  unfold Obligations.DecodeAndEncodeAgree
  intro w i
  constructor
  · exact eq_encode_of_decode
  · rintro rfl
    exact decode_encode i

/-- Settles O1: decode of each encoding is `decode_encode`, and the words and mnemonics are the definitions'. -/
theorem commandWordsOfTheOpcodeTable : Obligations.CommandWordsOfTheOpcodeTable := by
  unfold Obligations.CommandWordsOfTheOpcodeTable
  exact ⟨⟨decode_encode .modmul, rfl, rfl⟩, ⟨decode_encode .modexp, rfl, rfl⟩, ⟨decode_encode .egcd, rfl, rfl⟩,
    ⟨decode_encode .modinv, rfl, rfl⟩, ⟨decode_encode .primetest, rfl, rfl⟩⟩

/-- The reserved bits are looked at first, and alone (spec R72). -/
theorem decode_reservedBits_iff (w : Word) : decode w = .illegal .reservedBits ↔ 0x100 ≤ w.toNat := by
  rw [decode_toNat]
  by_cases h : w.toNat < 256
  · rw [if_pos h]
    refine iff_of_false (fun hd => ?_) (by omega)
    split at hd <;> cases hd
  · rw [if_neg h]
    exact iff_of_true rfl (by omega)

/-- With the reserved bits clear, the opcodes outside 1 to 5 are rejected (spec R73). -/
theorem decode_reservedOpcode_iff (w : Word) :
    decode w = .illegal .reservedOpcode ↔ w.toNat = 0 ∨ (0x06 ≤ w.toNat ∧ w.toNat < 0x100) := by
  rw [decode_toNat]
  by_cases h : w.toNat < 256
  · rw [if_pos h]
    split
    case h_6 _ h1 h2 h3 h4 h5 =>
      simp only [imp_false] at h1 h2 h3 h4 h5
      exact iff_of_true rfl (by omega)
    all_goals
      refine iff_of_false (fun hd => by cases hd) ?_
      omega
  · rw [if_neg h]
    exact iff_of_false (fun hd => by cases hd) (by omega)

/-- Settles O3: one equivalence for each of the two reasons. -/
theorem illegalWordsAreRejectedByName : Obligations.IllegalWordsAreRejectedByName := by
  unfold Obligations.IllegalWordsAreRejectedByName
  exact fun w => ⟨decode_reservedBits_iff w, decode_reservedOpcode_iff w⟩

/-! ### What a command writes and raises (spec R75, 10_state.md R33) -/

/-- An error writes none of the places of R75. -/
theorem readPlace_of_raise {c : ErrCode} {s t : State} (h : raise c s = .next t) (p : Place) :
    readPlace t p = readPlace s p := by
  cases h
  cases p with
  | reg r => cases r <;> rfl
  | _ => rfl

/-- A residue goes to `RES` and nowhere else. -/
theorem readPlace_write_res (s : State) (v : Nat) {p : Place} (hp : p ≠ .reg .res) :
    readPlace { s with res := v } p = readPlace s p := by
  cases p with
  | reg r => exact readReg_writeReg_ne s (r := .res) v fun hr => hp (congrArg Place.reg hr)
  | _ => rfl

/-- A Bezout result goes to the places listed for EGCD and nowhere else. -/
theorem readPlace_storeBezout (z : Bezout) (s : State) {p : Place} (hp : p ∉ writesOf .egcd) :
    readPlace (storeBezout z s) p = readPlace s p := by
  cases p with
  | reg r =>
    cases r with
    | rx | ry | rg => exact absurd (by decide) hp
    | _ => rfl
  | xneg | yneg => exact absurd (by decide) hp
  | _ => rfl

/-- The end of a run of trials writes the verdict and no other place. -/
theorem readPlace_endTrials (s : State) (run : TrialRun) {p : Place} (hp : p ≠ .verdict) :
    readPlace (endTrials s run) p = readPlace s p := by
  cases p with
  | reg r => cases r <;> cases run <;> rfl
  | verdict => exact absurd rfl hp
  | _ => cases run <;> rfl

/-- The end of a run of trials is DONE, or STATE stays. -/
theorem endTrials_state (s : State) (run : TrialRun) :
    (endTrials s run).state = .done ∨ (endTrials s run).state = s.state := by
  cases run with
  | verdict prime rest => exact .inl rfl
  | starved t => exact .inr rfl

/-- A place that a command changes is one of its "writes" column, whatever the outcome. -/
theorem mem_writesOf_of_readPlace_ne {i : Instr} {s t : State} {p : Place} (h : exec i s = .next t)
    (hne : readPlace t p ≠ readPlace s p) : p ∈ writesOf i := by
  by_contra hp
  refine hne ?_
  rcases exec_cases h with ⟨c, _, rfl⟩ | ⟨v, _, hi, rfl⟩ | ⟨rfl, rfl⟩ | ⟨rfl, _, rfl⟩
  · exact readPlace_of_raise (c := c) rfl p
  · have hres : .reg .res ∈ writesOf i := by rcases hi with rfl | rfl | rfl <;> decide
    rw [readPlace_commit]
    exact readPlace_write_res s v fun he => hp (he ▸ hres)
  · rw [readPlace_commit]
    exact readPlace_storeBezout _ s hp
  · exact readPlace_endTrials s _ fun he => hp (he ▸ List.mem_singleton_self _)

/-- A command that does not end in ERROR leaves ERRCODE as it was. -/
theorem exec_errcode_of_not_error {i : Instr} {s t : State} (h : exec i s = .next t) (ht : t.state ≠ .error) :
    t.errcode = s.errcode := by
  rcases exec_cases h with ⟨c, _, rfl⟩ | ⟨v, _, _, rfl⟩ | ⟨_, rfl⟩ | ⟨_, _, rfl⟩
  · exact absurd rfl ht
  · rfl
  · rfl
  · exact endTrials_errcode s _

/-- A running command that ends in ERROR has raised an error of its "can raise" column. -/
theorem exec_error {i : Instr} {s t : State} (h : exec i s = .next t) (hb : s.state = .busy) (ht : t.state = .error) :
    ∃ c ∈ raisesOf i, raise c s = .next t := by
  rcases exec_cases h with ⟨c, hc, rfl⟩ | ⟨v, _, _, rfl⟩ | ⟨_, rfl⟩ | ⟨_, _, rfl⟩
  · exact ⟨c, hc, rfl⟩
  · cases ht
  · cases ht
  · rcases endTrials_state s (runTrials s.n s.k.toNat (s.waiting.getD 0) s.words) with hs | hs
    · rw [hs] at ht
      cases ht
    · rw [hs, hb] at ht
      cases ht

/-- Settles O10: only listed places change, ERRCODE changes in ERROR only, and an ERROR is a `raise`. -/
theorem commandsWriteAndRaiseWhatTheTableLists : Obligations.CommandsWriteAndRaiseWhatTheTableLists := by
  unfold Obligations.CommandsWriteAndRaiseWhatTheTableLists
  refine fun i s t h => ⟨fun p hp => ?_, fun _ ht => ?_, fun hb ht => ?_⟩
  · by_contra hne
    exact hp (mem_writesOf_of_readPlace_ne h hne)
  · exact exec_errcode_of_not_error h (by simp [ht])
  · obtain ⟨c, hc, hraise⟩ := exec_error h hb ht
    refine ⟨readPlace_of_raise hraise, c, hc, ?_⟩
    cases hraise
    rfl

/-! ### The frame of a command in the window (spec R75, 20_memory.md R52) -/

/-- The registers that stand in a "writes" column, with the commands they stand there for. -/
theorem reg_mem_writesOf {i : Instr} {r : DataReg} (h : .reg r ∈ writesOf i) :
    (r = .res ∧ (i = .modmul ∨ i = .modexp ∨ i = .modinv)) ∨ ((r = .rx ∨ r = .ry ∨ r = .rg) ∧ i = .egcd) := by
  cases i with
  | primetest => simp [writesOf] at h
  | _ => simpa [writesOf] using h

/-- The flag word changes only with one of its three flags. -/
theorem rflagsWord_ne {s t : State} (h : rflagsWord t ≠ rflagsWord s) :
    ∃ p, (p = .verdict ∨ p = .xneg ∨ p = .yneg) ∧ readPlace t p ≠ readPlace s p := by
  by_contra hsame
  push Not at hsame
  have hv : t.verdict.toNat = s.verdict.toNat := hsame .verdict (.inl rfl)
  have hx : t.xneg.toNat = s.xneg.toNat := hsame .xneg (.inr (.inl rfl))
  have hy : t.yneg.toNat = s.yneg.toNat := hsame .yneg (.inr (.inr rfl))
  refine h (BitVec.eq_of_toNat_eq ?_)
  rw [rflagsWord_toNat, rflagsWord_toNat, hv, hx, hy]

/-- A command that changes the flag word writes a flag, as EGCD and PRIMETEST do. -/
theorem exec_rflagsWord_ne {i : Instr} {s t : State} (h : exec i s = .next t) (hne : rflagsWord t ≠ rflagsWord s) :
    i = .egcd ∨ i = .primetest := by
  obtain ⟨p, hp, hpne⟩ := rflagsWord_ne hne
  have hw : p ∈ writesOf i := mem_writesOf_of_readPlace_ne h hpne
  cases i with
  | egcd => exact .inl rfl
  | primetest => exact .inr rfl
  | _ =>
    obtain rfl := List.mem_singleton.1 hw
    simp at hp

/-- Settles O12, location by location: a changed word is a changed place, and that is a listed one. -/
theorem commandFrameInTheWindow : Obligations.CommandFrameInTheWindow := by
  unfold Obligations.CommandFrameInTheWindow
  intro i s t off loc h _ hne
  obtain ⟨_, _, _, hk, hcmd, _⟩ := exec_frame h
  cases loc with
  | cmd => exact absurd hcmd hne
  | status => exact .inl rfl
  | k => exact absurd hk hne
  | rflags => exact .inr (.inl ⟨rfl, exec_rflagsWord_ne h hne⟩)
  | limbOf r j =>
    have hreg : readPlace t (.reg r) ≠ readPlace s (.reg r) := fun he => hne (congrArg (limb · j) he)
    rcases reg_mem_writesOf (mem_writesOf_of_readPlace_ne h hreg) with ⟨rfl, hi⟩ | ⟨hr, hi⟩
    · exact .inr (.inr (.inl ⟨j, rfl, hi⟩))
    · exact .inr (.inr (.inr ⟨r, j, rfl, hr, hi⟩))

end Sys2Proof.Machine
end

section
/-! PROOFS, the host scripts (spec 30_encoding.md R78): `LD`, `RD`, and `ISSUE` with `WAIT`. -/

namespace Sys2Proof.Machine

open Sys2Proof

/-! ### A register as its limbs (spec 20_memory.md R53) -/

/-- The limbs below L join to what the value holds below bit 32·L. -/
theorem joinLimbs_map_limb (x L : Nat) : joinLimbs ((List.range L).map (limb x)) = x % 2 ^ (32 * L) := by
  induction L generalizing x with
  | zero => simp [joinLimbs, Nat.mod_one]
  | succ L ih =>
    have hshift : (List.range L).map (limb x ∘ Nat.succ) = (List.range L).map (limb (x / 2 ^ 32)) := by
      refine List.map_congr_left fun d _ => ?_
      have hd := limb_div x 0 d
      rw [Nat.mul_zero, pow_zero, Nat.div_one, Nat.zero_add, Nat.add_comm] at hd
      exact hd.symm
    have hlow : (limb x 0).toNat = x % 2 ^ 32 := by
      rw [limb_toNat, Nat.mul_zero, pow_zero, Nat.div_one]
    rw [List.range_succ_eq_map, List.map_cons, List.map_map, hshift, joinLimbs, ih, hlow, Nat.mul_add, Nat.mul_one,
      Nat.add_comm (32 * L), pow_add, Nat.mod_mul]

/-- A value of L limbs is what its limbs join to. -/
theorem joinLimbs_of_lt {x L : Nat} (hx : x < 2 ^ (32 * L)) : joinLimbs ((List.range L).map (limb x)) = x := by
  rw [joinLimbs_map_limb, Nat.mod_eq_of_lt hx]

/-- Values of L limbs with the same limbs are the same. -/
theorem eq_of_limbs_eq {x y L : Nat} (hx : x < 2 ^ (32 * L)) (hy : y < 2 ^ (32 * L))
    (h : ∀ j < L, limb x j = limb y j) : x = y := by
  rw [← joinLimbs_of_lt hx, ← joinLimbs_of_lt hy]
  exact congrArg joinLimbs (List.map_congr_left fun j hj => h j (List.mem_range.1 hj))

/-- The schedule and the response are no data registers. -/
theorem readReg_sched_resp (s : State) (sc : List Event) (rp : Option BusResp) (r : DataReg) :
    readReg { s with sched := sc, resp := rp } r = readReg s r := by
  cases r <;> rfl

/-! ### `LD` -/

/-- The write of limb j of v to the register r. -/
def limbWrite (r : DataReg) (v j : Nat) : Event := .access (.write (bankStart r + 4 * j) 4 (limb v j))

/-- `LD` writes the limbs in order, limb 0 first. -/
theorem scriptLD_eq_map (L : Nat) (r : DataReg) (v : Nat) : scriptLD L r v = (List.range L).map (limbWrite r v) := rfl

/-- The value x with the limbs of the list taken from v, in the order listed. -/
def loadLimbs (v x : Nat) (js : List Nat) : Nat := js.foldl (fun y j => setLimb y j (limb v j)) x

/-- Loading limbs keeps the register's range. -/
theorem loadLimbs_lt {v x L : Nat} {js : List Nat} (hx : x < 2 ^ (32 * L)) (hjs : ∀ j ∈ js, j < L) :
    loadLimbs v x js < 2 ^ (32 * L) := by
  induction js generalizing x with
  | nil => exact hx
  | cons j js ih =>
    obtain ⟨hj, hjs⟩ := List.forall_mem_cons.1 hjs
    exact ih (setLimb_lt hx hj) hjs

/-- A limb that is listed, or is that of v from the start, is that of v afterwards. -/
theorem limb_loadLimbs {v x i : Nat} {js : List Nat} (h : limb x i = limb v i ∨ i ∈ js) :
    limb (loadLimbs v x js) i = limb v i := by
  induction js generalizing x with
  | nil => exact h.resolve_right List.not_mem_nil
  | cons j js ih =>
    refine ih ?_
    by_cases hij : i = j
    · subst hij
      exact .inl (limb_setLimb_self x i _)
    · rw [limb_setLimb_ne _ hij]
      exact h.imp_right fun hmem => (List.mem_cons.1 hmem).resolve_left hij

/-- Loading all L limbs of v replaces the value by v, whatever it was. -/
theorem loadLimbs_range {v x L : Nat} (hx : x < 2 ^ (32 * L)) (hv : v < 2 ^ (32 * L)) :
    loadLimbs v x (List.range L) = v :=
  eq_of_limbs_eq (loadLimbs_lt hx fun _ => List.mem_range.1) hv
    fun _ hj => limb_loadLimbs (.inr (List.mem_range.2 hj))

/-- The state s within a `LD` of the register r, which holds x so far, with the events `sched` still to come. -/
def loading (s : State) (r : DataReg) (x : Nat) (sched : List Event) : State :=
  { writeReg s r x with sched := sched, resp := some .ok }

/-- A limb write within a `LD`. -/
theorem step_loading {s : State} {r : DataReg} (hL : Config.limbsWf s.limbs = true) (hb : s.state ≠ .busy)
    (hr : isOperand r = true) (v x : Nat) {j : Nat} (hj : j < s.limbs) (sched : List Event) :
    step (loading s r x (limbWrite r v j :: sched)) = .next (loading s r (setLimb x j (limb v j)) sched) := by
  have hstep := step_write_limb (s := loading s r x (limbWrite r v j :: sched)) (by simpa [loading] using hL)
    (by simpa [loading] using hb) hr (by simpa [loading] using hj) rfl
  rw [hstep]
  cases r <;> rfl

/-- The limb writes of a list within a `LD`. -/
theorem run_loading {s : State} {r : DataReg} (hL : Config.limbsWf s.limbs = true) (hb : s.state ≠ .busy)
    (hr : isOperand r = true) (v x : Nat) {js : List Nat} (hjs : ∀ j ∈ js, j < s.limbs) (rest : List Event) :
    Sys2Proof.core.run js.length (loading s r x (js.map (limbWrite r v) ++ rest)) =
      .next (loading s r (loadLimbs v x js) rest) := by
  induction js generalizing x with
  | nil => rfl
  | cons j js ih =>
    obtain ⟨hj, hjs⟩ := List.forall_mem_cons.1 hjs
    exact (run_succ _ (step_loading hL hb hr v x hj _)).trans (ih _ hjs)

/-- Settles O22: after the first limb write the state is within the `LD`, and all L writes load all limbs of v. -/
theorem loadScriptSetsTheWholeRegister : Obligations.LoadScriptSetsTheWholeRegister := by
  unfold Obligations.LoadScriptSetsTheWholeRegister
  intro s r v rest hinv hb hr hv hs
  have hop : isOperand r = true := by rcases hr with rfl | rfl | rfl <;> rfl
  obtain ⟨hpos, _⟩ := (limbsWf_iff _).1 hinv.width
  obtain ⟨j, js, hrange⟩ : ∃ j js, List.range s.limbs = j :: js :=
    List.exists_cons_of_ne_nil (by simp; omega)
  have hlen : js.length + 1 = s.limbs := by rw [← List.length_cons, ← hrange, List.length_range]
  obtain ⟨hj, hjs⟩ : j < s.limbs ∧ ∀ i ∈ js, i < s.limbs :=
    List.forall_mem_cons.1 fun i hi => List.mem_range.1 (hrange ▸ hi)
  have hsched : s.sched = limbWrite r v j :: (js.map (limbWrite r v) ++ rest) := by
    rw [hs, scriptLD_eq_map, hrange]
    rfl
  have hloaded : loadLimbs v (readReg s r) (j :: js) = v := by
    rw [← hrange]
    exact loadLimbs_range (hinv.ranges r) hv
  calc Sys2Proof.core.run s.limbs s
      = Sys2Proof.core.run js.length (loading s r (setLimb (readReg s r) j (limb v j))
          (js.map (limbWrite r v) ++ rest)) := by
        rw [← hlen]
        exact run_succ _ (step_write_limb hinv.width hb hop hj hsched)
    _ = .next (loading s r (loadLimbs v (readReg s r) (j :: js)) rest) :=
        run_loading hinv.width hb hop v _ hjs rest
    _ = .next (loading s r v rest) := by rw [hloaded]

/-! ### `RD` -/

/-- The read of limb j of the register r. -/
def limbRead (r : DataReg) (j : Nat) : Event := .access (.read (bankStart r + 4 * j) 4)

/-- `RD` reads the limbs in order, limb 0 first. -/
theorem scriptRD_eq_map (L : Nat) (r : DataReg) : scriptRD L r = (List.range L).map (limbRead r) := rfl

/-- A limb read is answered with the limb. -/
theorem step_limbRead {s : State} {r : DataReg} {j : Nat} {rest : List Event} (hL : Config.limbsWf s.limbs = true)
    (hj : j < s.limbs) (hs : s.sched = limbRead r j :: rest) :
    step s = .next { s with sched := rest, resp := some (.data (limb (readReg s r) j)) } :=
  step_read hs (locate_bank r ((limbsWf_iff _).1 hL).2 hj)

/-- Reading the limbs of a list leaves the last one in the response. -/
theorem run_limbReads {s : State} {r : DataReg} {is : List Nat} {j : Nat} {rest : List Event}
    (hL : Config.limbsWf s.limbs = true) (his : ∀ i ∈ is ++ [j], i < s.limbs)
    (hs : s.sched = (is ++ [j]).map (limbRead r) ++ rest) :
    Sys2Proof.core.run (is.length + 1) s =
      .next { s with sched := rest, resp := some (.data (limb (readReg s r) j)) } := by
  induction is generalizing s with
  | nil => exact run_succ 0 (step_limbRead hL (his j (by simp)) hs)
  | cons i is ih =>
    obtain ⟨hi, his⟩ := List.forall_mem_cons.1 his
    have hstep := step_limbRead hL hi hs
    have hrun := ih (s := { s with sched := _, resp := some (.data (limb (readReg s r) i)) }) hL his rfl
    rw [readReg_sched_resp] at hrun
    exact (run_succ _ hstep).trans hrun

/-- Settles O23: the first j + 1 reads of the script, and `joinLimbs_of_lt`. -/
theorem readScriptReturnsTheRegister : Obligations.ReadScriptReturnsTheRegister := by
  unfold Obligations.ReadScriptReturnsTheRegister
  intro s r rest hinv hs
  refine ⟨fun j hj => ?_, joinLimbs_of_lt (hinv.ranges r)⟩
  obtain ⟨d, hd⟩ : ∃ d, s.limbs = j + 1 + d := ⟨s.limbs - (j + 1), by omega⟩
  have hsplit : s.sched = (List.range j ++ [j]).map (limbRead r) ++
      (((List.range d).map (j + 1 + ·)).map (limbRead r) ++ rest) := by
    rw [hs, scriptRD_eq_map, ← List.range_succ, ← List.append_assoc, ← List.map_append, ← List.range_add, ← hd]
  have hrun := run_limbReads hinv.width (fun i hi => by simp at hi; omega) hsplit
  rw [List.length_range] at hrun
  exact ⟨_, hrun, rfl, readReg_sched_resp s _ _⟩

/-! ### `ISSUE` and `WAIT` -/

/-- A poll that reads BUSY while no request is outstanding: the core moves next. -/
theorem step_wait_busy {s : State} {rest : List Event} (hb : s.state = .busy) (hw : s.waiting = none)
    (hs : s.sched = .wait :: rest) :
    step s = .next { s with sched := .core :: .wait :: rest, resp := some (.data (statusWord s)) } := by
  have hp : requestPending { s with sched := rest } = false := by simp [requestPending, hw]
  rw [step_wait hs, pollStatus_busy (s := { s with sched := rest }) hb, afterBusyPoll_running hp]
  rfl

/-- A poll that reads DONE, ERROR or IDLE is the last. -/
theorem step_wait_done {s : State} {rest : List Event} (hb : s.state ≠ .busy) (hs : s.sched = .wait :: rest) :
    step s = .next { s with sched := rest, resp := some (.data (statusWord s)) } := by
  rw [step_wait hs, pollStatus_done (s := { s with sched := rest }) hb]
  rfl

/-- Every command but PRIMETEST ends in one move of the core. -/
theorem exec_ends {i : Instr} {s t : State} (h : exec i s = .next t) (hi : i ≠ .primetest) :
    t.state = .done ∨ t.state = .error := by
  rcases exec_state h with hd | he | ⟨hp, _⟩
  · exact .inl hd
  · exact .inr he
  · exact absurd hp hi

/-- The state s after the accept of the command m, with the events `sched` still to come. -/
def issued (m : Instr) (s : State) (sched : List Event) (resp : BusResp) : State :=
  { accept (encode m) s with sched := sched, resp := some resp }

/-- Settles O24: the accept, a poll that reads BUSY, the command, and a poll of the state it has left. -/
theorem issueAndWaitCompletes : Obligations.IssueAndWaitCompletes := by
  unfold Obligations.IssueAndWaitCompletes
  intro s m rest hb hm hs
  have haccept : step s = .next (issued m s (.wait :: rest) .ok) := step_accept hb hs
  obtain ⟨status, hpoll⟩ : ∃ status, step (issued m s (.wait :: rest) .ok) =
      .next (issued m s (.core :: .wait :: rest) (.data status)) := ⟨_, step_wait_busy rfl rfl rfl⟩
  obtain ⟨t, hexec⟩ := exec_next m (issued m s (.wait :: rest) (.data status))
  have hcore : step (issued m s (.core :: .wait :: rest) (.data status)) = .next t :=
    (stepRunsTheDecodedCommand (issued m s (.core :: .wait :: rest) (.data status)) m (.wait :: rest) rfl
      (decode_encode m) (.inr rfl)).trans hexec
  obtain ⟨_, _, _, _, hcmd, _, _, hsched, _⟩ := exec_frame hexec
  have hend : t.state = .done ∨ t.state = .error := exec_ends hexec hm
  have hlast : step t = .next { t with sched := rest, resp := some (.data (statusWord t)) } :=
    step_wait_done (by rcases hend with h | h <;> simp [h]) hsched
  exact ⟨_, (run_succ 3 haccept).trans ((run_succ 2 hpoll).trans ((run_succ 1 hcore).trans (run_succ 0 hlast))),
    rfl, hend, rfl, hcmd⟩

end Sys2Proof.Machine
end

section
/-! PROOFS, the modular multiplier (spec 40_modmul.md): the two ways MODMUL ends (R90). -/

namespace Sys2Proof.Machine

open Sys2Proof

/-- The modulus 0 is refused before anything is computed (spec R90). -/
theorem exec_modmul_of_n_eq_zero {s : State} (hn : s.n = 0) : exec .modmul s = raise .invalidArgument s := if_pos hn

/-- Every other modulus, even or odd, has the reduced product committed (spec R90, R92). -/
theorem exec_modmul_of_n_ne_zero {s : State} (hn : s.n ≠ 0) :
    exec .modmul s = .next (commit { s with res := mulmod s.a s.b s.n }) := if_neg hn

/-- Settles O26: one case per branch on the modulus; `raise`, `commit` and `mulmod` say which fields are written. -/
theorem modmulCommitsTheProduct : Obligations.ModmulCommitsTheProduct := by
  unfold Obligations.ModmulCommitsTheProduct
  refine ⟨rfl, fun s => ⟨fun hzero => ?_, fun hpos => ?_⟩⟩
  · rw [exec_modmul_of_n_eq_zero hzero, raise]
  · rw [exec_modmul_of_n_ne_zero hpos, commit, mulmod]

end Sys2Proof.Machine
end

section
/-! PROOFS, the exponentiation engine (spec 41_modexp.md): the loop's invariant (R101, R102) and its number of
iterations (R103), the two ways MODEXP ends (R100), and the RSA round trip (R104). -/

namespace Sys2Proof.Machine

open Sys2Proof

/-! ### The loop -/

/-- The low c + 1 bits of a value are its low c bits and bit c above them (spec 00_scope.md R12). -/
theorem mod_two_pow_succ_eq_add_bit (v c : Nat) : v % 2 ^ (c + 1) = v % 2 ^ c + 2 ^ c * bit v c := Nat.mod_pow_succ

/-- A bit is clear unless it is set. -/
theorem bit_eq_zero_of_ne_one {v c : Nat} (h : bit v c ≠ 1) : bit v c = 0 :=
  (Nat.mod_two_eq_zero_or_one _).resolve_right h

/-- The modular product of two powers of one base, each reduced first. -/
theorem mulmod_pow_mod_pow_mod (a k l n : Nat) : mulmod (a ^ k % n) (a ^ l % n) n = a ^ (k + l) % n := by
  rw [mulmod, ← Nat.mul_mod, pow_add]

/-- The registers at the top of iteration c (spec R101). -/
def modexpAt (a b n c : Nat) : ModexpRegs := { sq := a ^ 2 ^ c % n, acc := a ^ (b % 2 ^ c) % n, i := c }

/-- One iteration takes the registers of iteration c to those of iteration c + 1: squaring doubles the exponent 2^c,
and the multiplication adds bit c of b to the exponent of the running result. -/
theorem modexpIter_modexpAt (a b n c : Nat) : modexpIter b n (modexpAt a b n c) = modexpAt a b n (c + 1) := by
  have hsq : mulmod (a ^ 2 ^ c % n) (a ^ 2 ^ c % n) n = a ^ 2 ^ (c + 1) % n := by
    rw [mulmod_pow_mod_pow_mod, pow_succ, mul_two]
  have hacc : (if bit b c = 1 then mulmod (a ^ (b % 2 ^ c) % n) (a ^ 2 ^ c % n) n else a ^ (b % 2 ^ c) % n) =
      a ^ (b % 2 ^ (c + 1)) % n := by
    rw [mod_two_pow_succ_eq_add_bit]
    by_cases hbit : bit b c = 1
    · rw [if_pos hbit, hbit, mul_one, mulmod_pow_mod_pow_mod]
    · rw [if_neg hbit, bit_eq_zero_of_ne_one hbit, mul_zero, add_zero]
  rw [modexpIter, modexpAt, hsq, hacc, modexpAt]

/-- The invariant of the loop (spec R101), by induction on the iterations done. -/
theorem modexpLoop_modexpInit (a b n c : Nat) : modexpLoop b n c (modexpInit a n) = modexpAt a b n c := by
  induction c with
  | zero => simp [modexpLoop, modexpInit, modexpAt, Nat.mod_one]
  | succ c ih => rw [modexpLoop_succ, ih, modexpIter_modexpAt]

/-- Settles O28: `modexpLoop_modexpInit`. -/
theorem modexpLoopInvariant : Obligations.ModexpLoopInvariant := by
  unfold Obligations.ModexpLoopInvariant
  exact fun a b n count _ => modexpLoop_modexpInit a b n count

/-- Once every bit of b is spent, the running result is the power (spec R103). -/
theorem modexpLoop_acc_of_bitlen_le (a n : Nat) {b c : Nat} (hc : bitlen b ≤ c) :
    (modexpLoop b n c (modexpInit a n)).acc = a ^ b % n := by
  have hlow : b % 2 ^ c = b := Nat.mod_eq_of_lt ((bitlen_le_iff b c).1 hc)
  rw [modexpLoop_modexpInit, modexpAt, hlow]

/-- Settles O29: both numbers of iterations spend every bit of b. -/
theorem modexpFixedIterationCountAgrees : Obligations.ModexpFixedIterationCountAgrees := by
  unfold Obligations.ModexpFixedIterationCountAgrees
  intro a b n count _ hcount
  have hexit : (modexpLoop b n (bitlen b) (modexpInit a n)).acc = a ^ b % n := modexpLoop_acc_of_bitlen_le a n le_rfl
  exact ⟨hexit, (modexpLoop_acc_of_bitlen_le a n hcount).trans hexit.symm⟩

/-- The engine computes the power (spec R100). -/
theorem modexp_eq (a b n : Nat) : modexp a b n = a ^ b % n := modexpLoop_acc_of_bitlen_le a n le_rfl

/-! ### The command -/

/-- The modulus 0 is refused before anything is computed (spec R100). -/
theorem exec_modexp_of_n_eq_zero {s : State} (hn : s.n = 0) : exec .modexp s = raise .invalidArgument s := if_pos hn

/-- Every other modulus has the reduced power committed (spec R100). -/
theorem exec_modexp_of_n_ne_zero {s : State} (hn : s.n ≠ 0) :
    exec .modexp s = .next (commit { s with res := s.a ^ s.b % s.n }) := by
  rw [← modexp_eq]
  exact if_neg hn

/-- Settles O27: one case per branch on the modulus; `raise` and `commit` say which fields are written. -/
theorem modexpCommitsThePower : Obligations.ModexpCommitsThePower := by
  unfold Obligations.ModexpCommitsThePower
  refine ⟨rfl, fun s => ⟨fun hzero => ?_, fun hpos => ?_⟩⟩
  · rw [exec_modexp_of_n_eq_zero hzero, raise]
  · rw [exec_modexp_of_n_ne_zero hpos, commit]

/-! ### The RSA round trip -/

/-- Fermat's theorem with the multiples of the prime included: an exponent that is 1 more than a multiple of p - 1
changes no residue modulo p. -/
theorem pow_modEq_self_of_prime {p : Nat} (hp : p.Prime) (m k : Nat) : m ^ ((p - 1) * k + 1) ≡ m [MOD p] := by
  by_cases hdvd : p ∣ m
  · have hzero : m ≡ 0 [MOD p] := Nat.modEq_zero_iff_dvd.2 hdvd
    calc m ^ ((p - 1) * k + 1) ≡ 0 ^ ((p - 1) * k + 1) [MOD p] := hzero.pow _
      _ = 0 := zero_pow (Nat.succ_ne_zero _)
      _ ≡ m [MOD p] := hzero.symm
  · have hfermat : m ^ (p - 1) ≡ 1 [MOD p] := by
      rw [← Nat.totient_prime hp]
      exact Nat.ModEq.pow_totient (hp.coprime_iff_not_dvd.2 hdvd).symm
    calc m ^ ((p - 1) * k + 1) = (m ^ (p - 1)) ^ k * m := by rw [pow_succ, pow_mul]
      _ ≡ 1 ^ k * m [MOD p] := (hfermat.pow k).mul_right m
      _ = m := by rw [one_pow, one_mul]

/-- Encryption and then decryption, as powers: the exponents cancel modulo either prime, so modulo the product. -/
theorem rsa_pow_pow_mod {p q e d m : Nat} (hp : p.Prime) (hq : q.Prime) (hpq : p ≠ q)
    (hed : e * d % ((p - 1) * (q - 1)) = 1) (hm : m < p * q) : (m ^ e % (p * q)) ^ d % (p * q) = m := by
  obtain ⟨k, hk⟩ : ∃ k, e * d = (p - 1) * (q - 1) * k + 1 :=
    ⟨_, by simpa only [hed] using (Nat.div_add_mod (e * d) ((p - 1) * (q - 1))).symm⟩
  have hmodp : m ^ (e * d) ≡ m [MOD p] := by
    rw [hk, mul_assoc]
    exact pow_modEq_self_of_prime hp m _
  have hmodq : m ^ (e * d) ≡ m [MOD q] := by
    rw [hk, mul_comm (p - 1), mul_assoc]
    exact pow_modEq_self_of_prime hq m _
  have hmod : m ^ (e * d) ≡ m [MOD p * q] :=
    (Nat.modEq_and_modEq_iff_modEq_mul ((Nat.coprime_primes hp hq).2 hpq)).1 ⟨hmodp, hmodq⟩
  calc (m ^ e % (p * q)) ^ d % (p * q) = m ^ (e * d) % (p * q) := by rw [← Nat.pow_mod, pow_mul]
    _ = m % (p * q) := hmod
    _ = m := Nat.mod_eq_of_lt hm

/-- Settles O30: both commands commit their powers, and `rsa_pow_pow_mod` undoes the one by the other. -/
theorem rsaRoundTrip : Obligations.RsaRoundTrip := by
  unfold Obligations.RsaRoundTrip
  intro p q e d m s u hp hq hpq hed hm hsa hsb hsn hub hun
  have hn : p * q ≠ 0 := mul_ne_zero hp.ne_zero hq.ne_zero
  refine ⟨_, exec_modexp_of_n_ne_zero (hsn ▸ hn), fun hua => ⟨_, exec_modexp_of_n_ne_zero (hun ▸ hn), ?_⟩⟩
  have hcipher : u.a = m ^ e % (p * q) := by rw [hua, commit, hsa, hsb, hsn]
  calc u.a ^ u.b % u.n = (m ^ e % (p * q)) ^ d % (p * q) := by rw [hcipher, hub, hun]
    _ = m := rsa_pow_pow_mod hp hq hpq hed hm

end Sys2Proof.Machine
end

section
/-! PROOFS, the extended GCD unit (spec 42_egcd.md): what EGCD stores (R110, R111, R114), the sharp bounds on the Bezout
coefficients (R113), and the forward form of R112 with the ranges of its registers (R113). -/

namespace Sys2Proof.Machine

open Sys2Proof

/-! ### The command -/

/-- EGCD commits the triple of its operands in every state (spec R110). -/
theorem exec_egcd (s : State) : exec .egcd s = .next (commit (storeBezout (egcd s.a s.b) s)) := rfl

/-- Settles O31: the triple is the one `egcd` computes, which `egcd_defines` ties to the recursion. -/
theorem egcdStoresTheRecursiveTriple : Obligations.EgcdStoresTheRecursiveTriple := by
  unfold Obligations.EgcdStoresTheRecursiveTriple
  refine ⟨rfl, fun s => ⟨_, _, _, egcd_defines s.a s.b, ?_⟩⟩
  rw [exec_egcd, commit, storeBezout, signFlag, signFlag]

/-- The triple of the recursive definition satisfies Bezout's identity (spec R114): with a = a mod b + b * (a div b),
the identity for (b, a mod b) is the one for (a, b). -/
theorem egcdDefines_bezout {a b : Nat} {x y : Int} {g : Nat} (h : EgcdDefines a b x y g) :
    (a : Int) * x + (b : Int) * y = (g : Int) := by
  induction h with
  | base a => simp
  | @recurse a b x' y' g _ _ ih =>
    have hdiv : ((a % b : Nat) : Int) + (b : Int) * ((a / b : Nat) : Int) = (a : Int) := mod_cast Nat.mod_add_div a b
    calc (a : Int) * y' + (b : Int) * (x' - y' * ((a / b : Nat) : Int))
        = (b : Int) * x' + ((a % b : Nat) : Int) * y' := by rw [← hdiv]; ring
      _ = (g : Int) := ih

/-- A coefficient stored as sign and magnitude reads back as itself (spec R23). -/
theorem signedValue_signFlag_natAbs (x : Int) : signedValue (signFlag x) x.natAbs = x := by
  rw [signedValue, signFlag]
  by_cases hneg : x < 0
  · rw [if_pos (decide_eq_true hneg)]; omega
  · rw [if_neg (by simpa using hneg)]; omega

/-- Settles O32: the stored signs and magnitudes read back as the coefficients of the recursive triple. -/
theorem egcdMeetsTheBezoutContract : Obligations.EgcdMeetsTheBezoutContract := by
  unfold Obligations.EgcdMeetsTheBezoutContract
  refine fun s => ⟨_, exec_egcd s, ?_, egcdDefines_gcd (egcd_defines s.a s.b)⟩
  change (s.a : Int) * signedValue (signFlag (egcd s.a s.b).x) (egcd s.a s.b).x.natAbs +
    (s.b : Int) * signedValue (signFlag (egcd s.a s.b).y) (egcd s.a s.b).y.natAbs = ((egcd s.a s.b).g : Int)
  rw [signedValue_signFlag_natAbs, signedValue_signFlag_natAbs]
  exact egcdDefines_bezout (egcd_defines s.a s.b)

/-! ### The bounds on the coefficients (spec R113) -/

/-- A common factor of the operands changes no quotient, so it scales the gcd alone. -/
theorem egcdDefines_mul_left {a b : Nat} {x y : Int} {g : Nat} (h : EgcdDefines a b x y g) {c : Nat} (hc : 0 < c) :
    EgcdDefines (c * a) (c * b) x y (c * g) := by
  induction h with
  | base a => exact .base (c * a)
  | @recurse a b x' y' g hb _ ih =>
    rw [← Nat.mul_mod_mul_left] at ih
    rw [← Nat.mul_div_mul_left a b hc]
    exact .recurse (Nat.mul_pos hc hb) ih

/-- R113, the sharp bounds: the coefficients of `egcd(a, b)` are those of the coprime operands a div g and b div g, to
which the plain bounds apply. -/
theorem egcdDefines_sharp_bounds {a b : Nat} {x y : Int} {g : Nat} (h : EgcdDefines a b x y g) (hb : b ≠ 0) :
    x.natAbs ≤ max 1 (b / g) ∧ y.natAbs ≤ max 1 (a / g) := by
  have hgcd : g = Nat.gcd a b := egcdDefines_gcd h
  have hgpos : 0 < g := hgcd ▸ Nat.gcd_pos_of_pos_right a (Nat.pos_of_ne_zero hb)
  have hscaled := egcdDefines_mul_left (egcd_defines (a / g) (b / g)) hgpos
  rw [Nat.mul_div_cancel' (hgcd ▸ Nat.gcd_dvd_left a b),
    Nat.mul_div_cancel' (hgcd ▸ Nat.gcd_dvd_right a b)] at hscaled
  obtain ⟨rfl, rfl, _⟩ := egcdDefines_unique h hscaled
  exact (egcdDefines_bounds (egcd_defines (a / g) (b / g))).2

/-- Settles O33: the plain bounds, the sharp ones, and the fit in W bits that follows from the plain ones. -/
theorem egcdCoefficientsFit : Obligations.EgcdCoefficientsFit := by
  unfold Obligations.EgcdCoefficientsFit
  intro a b x y g h
  obtain ⟨hg, hx, hy⟩ := egcdDefines_bounds h
  refine ⟨hg, hx, hy, egcdDefines_sharp_bounds h, fun W hW ha hb => ?_⟩
  obtain ⟨rfl, rfl, rfl⟩ := egcdDefines_unique h (egcd_defines a b)
  exact egcd_fits hW ha hb

/-! ### The forward form (spec R112) -/

/-- With R1 = 0 the loop is over, on any fuel. -/
theorem egcdLoop_of_r1_eq_zero {h : EgcdRegs} (hr : h.r1 = 0) (fuel : Nat) : egcdLoop fuel h = h := by
  cases fuel with
  | zero => rfl
  | succ fuel => exact if_pos hr

/-- With R1 ≠ 0 the loop makes an iteration. -/
theorem egcdLoop_succ_of_r1_ne_zero {h : EgcdRegs} (hr : h.r1 ≠ 0) (fuel : Nat) :
    egcdLoop (fuel + 1) h = egcdLoop fuel (egcdIter h) := if_neg hr

/-- What an iteration keeps, any number of iterations keeps. -/
theorem egcdLoop_keeps {P : EgcdRegs → Prop} (hiter : ∀ h, h.r1 ≠ 0 → P h → P (egcdIter h)) (fuel : Nat)
    {h : EgcdRegs} (hP : P h) : P (egcdLoop fuel h) := by
  induction fuel generalizing h with
  | zero => exact hP
  | succ fuel ih =>
    by_cases hr : h.r1 = 0
    · rwa [egcdLoop_of_r1_eq_zero hr]
    · rw [egcdLoop_succ_of_r1_ne_zero hr]
      exact ih (hiter h hr hP)

/-- The loop from any registers, on enough fuel: it ends with the triple (x, y, g) of (R0, R1), where the coefficients
are applied to the S and T registers it began with. -/
theorem egcdLoop_of_egcdDefines {a b : Nat} {x y : Int} {g : Nat} (hdef : EgcdDefines a b x y g) {h : EgcdRegs}
    (h0 : h.r0 = a) (h1 : h.r1 = b) {fuel : Nat} (hfuel : b ≤ fuel) :
    (egcdLoop fuel h).r0 = g ∧ (egcdLoop fuel h).s0 = x * h.s0 + y * h.s1 ∧
      (egcdLoop fuel h).t0 = x * h.t0 + y * h.t1 := by
  induction hdef generalizing h fuel with
  | base a =>
    rw [egcdLoop_of_r1_eq_zero h1]
    exact ⟨h0, by ring, by ring⟩
  | @recurse a b x' y' g hb _ ih =>
    subst h0 h1
    obtain ⟨fuel, rfl⟩ : ∃ n, fuel = n + 1 := ⟨fuel - 1, by omega⟩
    have hmod : h.r0 % h.r1 < h.r1 := Nat.mod_lt _ hb
    obtain ⟨hg, hs, ht⟩ := ih (h := egcdIter h) rfl rfl (fuel := fuel) (by omega)
    rw [egcdLoop_succ_of_r1_ne_zero hb.ne']
    refine ⟨hg, ?_, ?_⟩
    · rw [hs, egcdIter]; ring
    · rw [ht, egcdIter]; ring

/-- The forward form returns the triple of the recursive definition: its S and T registers begin as (1, 0) and
(0, 1). -/
theorem egcdForward_eq_egcd (a b : Nat) : egcdForward a b = egcd a b := by
  obtain ⟨hg, hs, ht⟩ := egcdLoop_of_egcdDefines (egcd_defines a b) (h := egcdInit a b) rfl rfl le_rfl
  rw [egcdForward, hg, hs, ht, egcdInit]
  simp

/-- The loop invariant of spec R112 for the loop of `egcd(a, b)`. -/
def BezoutRegs (a b : Nat) (h : EgcdRegs) : Prop :=
  (a : Int) * h.s0 + (b : Int) * h.t0 = (h.r0 : Int) ∧ (a : Int) * h.s1 + (b : Int) * h.t1 = (h.r1 : Int)

/-- The invariant holds at the start of the loop. -/
theorem bezoutRegs_egcdInit (a b : Nat) : BezoutRegs a b (egcdInit a b) := by simp [BezoutRegs, egcdInit]

/-- An iteration keeps the invariant: the new R1 is R0 - q * R1, like the new S1 and T1. -/
theorem bezoutRegs_egcdIter {a b : Nat} {h : EgcdRegs} (hinv : BezoutRegs a b h) : BezoutRegs a b (egcdIter h) := by
  obtain ⟨h0, h1⟩ := hinv
  have hdiv : ((h.r0 % h.r1 : Nat) : Int) + (h.r1 : Int) * ((h.r0 / h.r1 : Nat) : Int) = (h.r0 : Int) :=
    mod_cast Nat.mod_add_div h.r0 h.r1
  refine ⟨h1, ?_⟩
  simp only [egcdIter]
  linear_combination h0 - ((h.r0 / h.r1 : Nat) : Int) * h1 - hdiv

/-- Settles O34: the forward form is `egcd`, and every iteration keeps the loop invariant. -/
theorem forwardEuclidAgreesWithTheRecursion : Obligations.ForwardEuclidAgreesWithTheRecursion := by
  unfold Obligations.ForwardEuclidAgreesWithTheRecursion
  intro a b
  refine ⟨?_, fun fuel => egcdLoop_keeps (P := BezoutRegs a b) (fun _ _ => bezoutRegs_egcdIter) fuel
    (bezoutRegs_egcdInit a b)⟩
  rw [egcdForward_eq_egcd]
  exact egcd_defines a b

/-! ### The ranges of the forward form's registers (spec R113) -/

/-- What the loop keeps of one pair of coefficient registers (U0, U1), S or T, where `c` is the operand that bounds
them: the two never have the same sign, so that their magnitudes, weighted with R1 and R0, add up to `c`. -/
structure CoefficientPair (c r0 r1 : Nat) (u0 u1 : Int) : Prop where
  opposite : u0 * u1 ≤ 0
  weighted : u1.natAbs * r0 + u0.natAbs * r1 = c
  range0 : u0.natAbs ≤ max 1 c
  range1 : u1.natAbs ≤ max 1 c

/-- The pair (1, 0), as S begins. -/
theorem coefficientPair_one_zero (a b : Nat) : CoefficientPair b a b 1 0 where
  opposite := by simp
  weighted := by simp
  range0 := by simp
  range1 := by simp

/-- The pair (0, 1), as T begins. -/
theorem coefficientPair_zero_one (a b : Nat) : CoefficientPair a a b 0 1 where
  opposite := by simp
  weighted := by simp
  range0 := by simp
  range1 := by simp

/-- Subtracting a multiple of a number of the opposite sign adds the magnitudes. -/
theorem natAbs_sub_mul_of_opposite {u0 u1 : Int} (h : u0 * u1 ≤ 0) (q : Nat) :
    (u0 - (q : Int) * u1).natAbs = u0.natAbs + q * u1.natAbs := by
  have habs : ((q : Int) * u1).natAbs = q * u1.natAbs := by rw [Int.natAbs_mul, Int.natAbs_natCast]
  rw [← habs]
  rcases mul_nonpos_iff.1 h with ⟨hu0, hu1⟩ | ⟨hu0, hu1⟩
  · have hmul : (q : Int) * u1 ≤ 0 := mul_nonpos_of_nonneg_of_nonpos q.cast_nonneg hu1
    omega
  · have hmul : 0 ≤ (q : Int) * u1 := mul_nonneg q.cast_nonneg hu1
    omega

/-- An iteration keeps the pair: the weighted sum is the same one, and in it the new U1 has the weight R1 ≥ 1. -/
theorem coefficientPair_iter {c r0 r1 : Nat} {u0 u1 : Int} (h : CoefficientPair c r0 r1 u0 u1) (hr : r1 ≠ 0) :
    CoefficientPair c r1 (r0 % r1) u1 (u0 - ((r0 / r1 : Nat) : Int) * u1) := by
  have hweighted : (u0 - ((r0 / r1 : Nat) : Int) * u1).natAbs * r1 + u1.natAbs * (r0 % r1) = c :=
    calc (u0 - ((r0 / r1 : Nat) : Int) * u1).natAbs * r1 + u1.natAbs * (r0 % r1)
        = u1.natAbs * (r0 % r1 + r1 * (r0 / r1)) + u0.natAbs * r1 := by
          rw [natAbs_sub_mul_of_opposite h.opposite]; ring
      _ = u1.natAbs * r0 + u0.natAbs * r1 := by rw [Nat.mod_add_div]
      _ = c := h.weighted
  refine ⟨?_, hweighted, h.range1, ?_⟩
  · have hsq : 0 ≤ ((r0 / r1 : Nat) : Int) * (u1 * u1) := mul_nonneg (Nat.cast_nonneg _) (mul_self_nonneg u1)
    calc u1 * (u0 - ((r0 / r1 : Nat) : Int) * u1) = u0 * u1 - ((r0 / r1 : Nat) : Int) * (u1 * u1) := by ring
      _ ≤ 0 := by linarith [h.opposite]
  · calc (u0 - ((r0 / r1 : Nat) : Int) * u1).natAbs
        ≤ (u0 - ((r0 / r1 : Nat) : Int) * u1).natAbs * r1 := Nat.le_mul_of_pos_right _ (Nat.pos_of_ne_zero hr)
      _ ≤ c := hweighted ▸ Nat.le_add_right _ _
      _ ≤ max 1 c := le_max_right _ _

/-- Both pairs of coefficient registers, S bounded by b and T by a. -/
def CoefficientRegs (a b : Nat) (h : EgcdRegs) : Prop :=
  CoefficientPair b h.r0 h.r1 h.s0 h.s1 ∧ CoefficientPair a h.r0 h.r1 h.t0 h.t1

/-- The pairs after any number of iterations of the loop of `egcd(a, b)`. -/
theorem coefficientRegs_egcdLoop (a b fuel : Nat) : CoefficientRegs a b (egcdLoop fuel (egcdInit a b)) :=
  egcdLoop_keeps (fun _ hr ⟨hs, ht⟩ => ⟨coefficientPair_iter hs hr, coefficientPair_iter ht hr⟩) fuel
    ⟨coefficientPair_one_zero a b, coefficientPair_zero_one a b⟩

/-- At exit, where R1 = 0, the weighted sum says what U1 is. -/
theorem coefficientPair_natAbs_at_exit {c g : Nat} {u0 u1 : Int} (h : CoefficientPair c g 0 u0 u1) (hg : g ≠ 0) :
    u1.natAbs = c / g :=
  Nat.eq_div_of_mul_eq_left hg (by simpa using h.weighted)

/-- Settles O35: the ranges are kept by every iteration; at exit R1 = 0 and R0 is the gcd. -/
theorem forwardEuclidRegistersStayInRange : Obligations.ForwardEuclidRegistersStayInRange := by
  unfold Obligations.ForwardEuclidRegistersStayInRange
  intro a b fuel
  obtain ⟨hs, ht⟩ := coefficientRegs_egcdLoop a b fuel
  refine ⟨hs.range0, hs.range1, ht.range0, ht.range1, fun hg hfuel => ?_⟩
  have hr1 : (egcdLoop fuel (egcdInit a b)).r1 = 0 := egcdLoop_exit fuel (egcdInit a b) hfuel
  have hr0 : (egcdLoop fuel (egcdInit a b)).r0 = Nat.gcd a b :=
    (egcdLoop_of_egcdDefines (egcd_defines a b) (h := egcdInit a b) rfl rfl hfuel).1.trans
      (egcdDefines_gcd (egcd_defines a b))
  rw [hr0, hr1] at hs ht
  exact ⟨coefficientPair_natAbs_at_exit hs hg, coefficientPair_natAbs_at_exit ht hg⟩

end Sys2Proof.Machine
end

section
/-! PROOFS, the modular inverse engine (spec 43_modinv.md): the hidden register INV (R120, R121), the three ways MODINV
ends (R120), and the quotient as the solution of B · r = A modulo N (R122). -/

namespace Sys2Proof.Machine

open Sys2Proof

/-! ### The inverse -/

/-- INV is the non-negative residue of the second coefficient (spec R120). -/
theorem inverseOf_cast {n : Nat} (hn : n ≠ 0) (z : Bezout) : (inverseOf z n : Int) = z.y % (n : Int) :=
  Int.toNat_of_nonneg (Int.emod_nonneg z.y (mod_cast hn))

/-- The gcd the engine checks, of (N, B) in this order (spec R121), is that of B and N. -/
theorem egcd_g_eq_gcd_comm (n b : Nat) : (egcd n b).g = Nat.gcd b n :=
  (egcdDefines_gcd (egcd_defines n b)).trans (Nat.gcd_comm n b)

/-- Bezout's identity N·x + B·y = 1 read modulo N: INV is the inverse of B (spec R121). -/
theorem mul_inverseOf_egcd_modEq_one {n b : Nat} (hn : n ≠ 0) (hg : Nat.gcd b n = 1) :
    b * inverseOf (egcd n b) n ≡ 1 [MOD n] := by
  have hbezout : (n : Int) * (egcd n b).x + (b : Int) * (egcd n b).y = 1 := by
    rw [egcdDefines_bezout (egcd_defines n b), egcd_g_eq_gcd_comm, hg, Nat.cast_one]
  rw [← Int.natCast_modEq_iff]
  calc ((b * inverseOf (egcd n b) n : Nat) : Int)
      = (b : Int) * ((egcd n b).y % (n : Int)) := by rw [Nat.cast_mul, inverseOf_cast hn]
    _ ≡ (b : Int) * (egcd n b).y [ZMOD n] := (Int.mod_modEq _ _).mul_left _
    _ ≡ (n : Int) * (egcd n b).x + (b : Int) * (egcd n b).y [ZMOD n] := Int.modEq_modulus_mul_add_iff.2 rfl
    _ = ((1 : Nat) : Int) := hbezout

/-- The committed quotient solves B · r = A modulo N (spec R122). -/
theorem mul_mulmod_inverseOf_egcd_modEq (a : Nat) {n b : Nat} (hn : n ≠ 0) (hg : Nat.gcd b n = 1) :
    b * mulmod a (inverseOf (egcd n b) n) n ≡ a [MOD n] :=
  calc b * mulmod a (inverseOf (egcd n b) n) n
      ≡ b * (a * inverseOf (egcd n b) n) [MOD n] := (Nat.mod_modEq _ _).mul_left b
    _ = a * (b * inverseOf (egcd n b) n) := Nat.mul_left_comm b a _
    _ ≡ a * 1 [MOD n] := (mul_inverseOf_egcd_modEq_one hn hg).mul_left a
    _ = a := Nat.mul_one a

/-! ### The command -/

/-- The modulus 0 is refused first, whatever gcd(B, 0) is (spec R120). -/
theorem exec_modinv_of_n_eq_zero {s : State} (hn : s.n = 0) : exec .modinv s = raise .invalidArgument s := if_pos hn

/-- A value B with no inverse is refused, whatever A is (spec R120). -/
theorem exec_modinv_of_gcd_ne_one {s : State} (hn : s.n ≠ 0) (hg : Nat.gcd s.b s.n ≠ 1) :
    exec .modinv s = raise .notInvertible s := by
  rw [← egcd_g_eq_gcd_comm] at hg
  exact (if_neg hn).trans (if_neg hg)

/-- An invertible B has the product of A and INV committed, and nothing of the Bezout result (spec R120). -/
theorem exec_modinv_of_gcd_eq_one {s : State} (hn : s.n ≠ 0) (hg : Nat.gcd s.b s.n = 1) :
    exec .modinv s = .next (commit { s with res := mulmod s.a (inverseOf (egcd s.n s.b) s.n) s.n }) := by
  rw [← egcd_g_eq_gcd_comm] at hg
  exact (if_neg hn).trans (if_pos hg)

/-- Settles O36: one case per branch of the command; `egcd_defines` ties the engine's triple to the recursion. -/
theorem modinvCommitsTheQuotient : Obligations.ModinvCommitsTheQuotient := by
  unfold Obligations.ModinvCommitsTheQuotient
  refine ⟨rfl, fun s => ⟨fun hzero => ?_, fun hpos hg => ?_, fun hpos hg => ?_⟩⟩
  · rw [exec_modinv_of_n_eq_zero hzero, raise]
  · rw [exec_modinv_of_gcd_ne_one hpos hg, raise]
  · have htriple := egcd_defines s.n s.b
    rw [egcd_g_eq_gcd_comm, hg] at htriple
    refine ⟨_, _, inverseOf (egcd s.n s.b) s.n, htriple, inverseOf_cast hpos _, ?_⟩
    rw [exec_modinv_of_gcd_eq_one hpos hg, commit, mulmod]

/-- Settles O37: the result is a residue modulo N > 0, and `mul_mulmod_inverseOf_egcd_modEq` is its equation. -/
theorem modinvResultIsTheInverse : Obligations.ModinvResultIsTheInverse := by
  unfold Obligations.ModinvResultIsTheInverse
  intro s hn hg
  have hpos : s.n ≠ 0 := Nat.one_le_iff_ne_zero.1 hn
  have hsolves := mul_mulmod_inverseOf_egcd_modEq s.a hpos hg
  exact ⟨_, exec_modinv_of_gcd_eq_one hpos hg, rfl, Nat.mod_lt _ hn, hsolves, fun hone => hone ▸ hsolves⟩

end Sys2Proof.Machine
end

section
/-! PROOFS, the trials of PRIMETEST (spec 44_primetest.md): the draw of a witness (R131), one trial (R132), and the
trials whose outcome is certain (R135, R137). -/

namespace Sys2Proof.Machine

open Sys2Proof

/-! ### The draw (spec R131) -/

/-- A word is accepted with its low bits when they are in [1, n - 1], and no other way. -/
theorem witnessOf_eq_some_iff (n r c : Nat) :
    witnessOf n r = some c ↔ c = r % 2 ^ bitlen (n - 1) ∧ 1 ≤ c ∧ c ≤ n - 1 := by
  rw [witnessOf, Option.ite_none_right_eq_some, Option.some_inj]
  constructor
  · rintro ⟨hrange, rfl⟩
    exact ⟨rfl, hrange⟩
  · rintro ⟨rfl, hrange⟩
    exact ⟨hrange, rfl⟩

/-- Settles O39: the bounds say that m is the bit length of n - 1 (`bitlen_eq_iff`), which the draw masks with. -/
theorem drawMasksAndRejects : Obligations.DrawMasksAndRejects := by
  unfold Obligations.DrawMasksAndRejects
  intro n r m hn hlow hhigh
  have hm : 0 < m := Nat.pos_of_ne_zero (by rintro rfl; omega)
  obtain rfl : bitlen (n - 1) = m := (bitlen_eq_iff (by omega)).2 ⟨hm, hlow, hhigh⟩
  exact ⟨hm, fun W hW => (bitlen_le_iff _ W).2 (by omega), witnessOf_eq_some_iff n r⟩

/-! ### One trial (spec R132) -/

/-- The trial of the core is the Fermat test, for `modexp` computes the power. -/
theorem trialPasses_iff (n w : Nat) : trialPasses n w = true ↔ Passes n w := by
  rw [trialPasses, modexp_eq, beq_iff_eq, Passes]

/-- The trial of the core fails exactly when the Fermat test does. -/
theorem trialPasses_eq_false_iff (n w : Nat) : trialPasses n w = false ↔ ¬ Passes n w := by
  rw [← trialPasses_iff, Bool.not_eq_true]

/-- Settles O40: `trialPasses_iff`, which needs no bound on n. -/
theorem trialPassesExactlyWhenFermatHolds : Obligations.TrialPassesExactlyWhenFermatHolds := by
  unfold Obligations.TrialPassesExactlyWhenFermatHolds
  exact fun n w _ => trialPasses_iff n w

/-- The Fermat test as a congruence: 1 is reduced already. -/
theorem passes_iff_modEq {n : Nat} (hn : 2 ≤ n) (w : Nat) : Passes n w ↔ w ^ (n - 1) ≡ 1 [MOD n] := by
  rw [Passes, Nat.ModEq, Nat.mod_eq_of_lt hn]

/-! ### Witnesses that share a factor with the candidate, and primes (spec R135, R137) -/

/-- A witness that passes has an inverse modulo n. -/
theorem coprime_of_passes {n w : Nat} (hn : 2 ≤ n) (h : Passes n w) : w.Coprime n := by
  have hgcd : Nat.gcd (w ^ (n - 1)) n = 1 := by
    rw [((passes_iff_modEq hn w).1 h).gcd_eq, Nat.gcd_one_left]
  exact (Nat.coprime_pow_left_iff (by omega) w n).1 hgcd

/-- Fermat's theorem, for an exponent that is a multiple of p - 1. -/
theorem pow_modEq_one_of_prime {p w e : Nat} (hp : p.Prime) (hw : w.Coprime p) (he : p - 1 ∣ e) :
    w ^ e ≡ 1 [MOD p] := by
  obtain ⟨k, rfl⟩ := he
  rw [← Nat.totient_prime hp, pow_mul]
  simpa using (Nat.ModEq.pow_totient hw).pow k

/-- Every witness of a prime passes (spec R135). -/
theorem passes_of_prime {n w : Nat} (hn : n.Prime) (h1 : 1 ≤ w) (hw : w ≤ n - 1) : Passes n w := by
  have hlt : w < n := by have := hn.two_le; omega
  have hcop : w.Coprime n := (Nat.coprime_of_lt_prime (by omega) hlt hn).symm
  exact (passes_iff_modEq hn.two_le w).2 (pow_modEq_one_of_prime hn hcop dvd_rfl)

/-! ### The witnesses 1 and n - 1 (spec R137) -/

/-- The witness 1 passes for every candidate. -/
theorem passes_one {n : Nat} (hn : 2 ≤ n) : Passes n 1 := by
  rw [passes_iff_modEq hn, one_pow]

/-- The square of n - 1 is 1 modulo n, for it is n · (n - 2) + 1. -/
theorem sub_one_sq_modEq_one {n : Nat} (hn : 2 ≤ n) : (n - 1) ^ 2 ≡ 1 [MOD n] := by
  obtain ⟨m, rfl⟩ := Nat.exists_eq_add_of_le hn
  have hsq : (2 + m - 1) ^ 2 = (2 + m) * m + 1 := by
    rw [show 2 + m - 1 = m + 1 by omega]
    ring
  rw [hsq]
  exact Nat.modulus_mul_add_modEq_iff.2 rfl

/-- An even power of n - 1 is 1 modulo n. -/
theorem sub_one_pow_even_modEq_one {n : Nat} (hn : 2 ≤ n) (j : Nat) : (n - 1) ^ (2 * j) ≡ 1 [MOD n] := by
  rw [pow_mul]
  simpa using (sub_one_sq_modEq_one hn).pow j

/-- The witness n - 1 passes for an odd candidate: the exponent is even. -/
theorem passes_sub_one_of_odd {n : Nat} (hn : 2 ≤ n) (hodd : n % 2 = 1) : Passes n (n - 1) := by
  have hexp : n - 1 = 2 * (n / 2) := by omega
  have hpow := sub_one_pow_even_modEq_one hn (n / 2)
  rw [← hexp] at hpow
  exact (passes_iff_modEq hn _).2 hpow

/-- The witness n - 1 fails for an even candidate above 2: the exponent is odd, so the power is n - 1 again. -/
theorem not_passes_sub_one_of_even {n : Nat} (hn : 4 ≤ n) (heven : n % 2 = 0) : ¬ Passes n (n - 1) := by
  have hn2 : 2 ≤ n := by omega
  have hexp : n - 1 = 2 * (n / 2 - 1) + 1 := by omega
  have hpow : (n - 1) ^ (n - 1) ≡ n - 1 [MOD n] :=
    calc (n - 1) ^ (n - 1) = (n - 1) ^ (2 * (n / 2 - 1)) * (n - 1) := by rw [← pow_succ, ← hexp]
      _ ≡ 1 * (n - 1) [MOD n] := (sub_one_pow_even_modEq_one hn2 _).mul_right _
      _ = n - 1 := one_mul _
  intro h
  have hone : n - 1 ≡ 1 [MOD n] := hpow.symm.trans ((passes_iff_modEq hn2 _).1 h)
  have heq : n - 1 = 1 := hone.eq_of_lt_of_lt (by omega) (by omega)
  omega

/-! ### The Carmichael number 561 (spec R137) -/

/-- The exponent 560 is a multiple of p - 1 for each prime factor p of 561 = 3 · 11 · 17, so every witness coprime to
561 passes; no other witness of any candidate does. -/
theorem passes_561_iff (w : Nat) : Passes 561 w ↔ w.Coprime 561 := by
  refine ⟨coprime_of_passes (by norm_num), fun hw => ?_⟩
  have hfactor : ∀ p, p.Prime → p ∣ 561 → p - 1 ∣ 561 - 1 → w ^ (561 - 1) ≡ 1 [MOD p] :=
    fun p hp hdvd he => pow_modEq_one_of_prime hp (hw.coprime_dvd_right hdvd) he
  have h3 := hfactor 3 (by norm_num) (by norm_num) (by norm_num)
  have h11 := hfactor 11 (by norm_num) (by norm_num) (by norm_num)
  have h17 := hfactor 17 (by norm_num) (by norm_num) (by norm_num)
  have h33 : w ^ (561 - 1) ≡ 1 [MOD 3 * 11] := (Nat.modEq_and_modEq_iff_modEq_mul (by norm_num)).1 ⟨h3, h11⟩
  have h561 : w ^ (561 - 1) ≡ 1 [MOD 3 * 11 * 17] :=
    (Nat.modEq_and_modEq_iff_modEq_mul (by norm_num)).1 ⟨h33, h17⟩
  exact (passes_iff_modEq (by norm_num) w).2 h561

/-- Euler's totient counts the coprime values as a list filter does. -/
theorem length_filter_coprime_range (n : Nat) :
    ((List.range n).filter (fun w => decide (n.Coprime w))).length = n.totient := rfl

/-- The totient of 561 = 3 · 11 · 17 is 2 · 10 · 16. -/
theorem totient_561 : Nat.totient 561 = 320 := by
  have h33 : Nat.totient (3 * 11) = 20 := by
    rw [Nat.totient_mul (by norm_num), Nat.totient_prime (by norm_num), Nat.totient_prime (by norm_num)]
  calc Nat.totient 561 = Nat.totient (3 * 11) * Nat.totient 17 := Nat.totient_mul (m := 3 * 11) (n := 17) (by norm_num)
    _ = 320 := by rw [h33, Nat.totient_prime (by norm_num)]

/-- The number of witnesses of 561 that pass. -/
theorem length_filter_trialPasses_561 : ((List.range 561).filter (fun w => trialPasses 561 w)).length = 320 := by
  have hsame : (fun w => trialPasses 561 w) = fun w => decide (Nat.Coprime 561 w) := by
    funext w
    rw [Bool.eq_iff_iff, trialPasses_iff, passes_561_iff, decide_eq_true_iff, Nat.coprime_comm]
  rw [hsame, length_filter_coprime_range, totient_561]

/-- Settles O45: one lemma for each general fact; the witnesses of 4 and 15 are few enough to try. -/
theorem witnessFacts : Obligations.WitnessFacts := by
  unfold Obligations.WitnessFacts
  simp only [trialPasses_iff, trialPasses_eq_false_iff]
  refine ⟨fun _ => passes_one, fun n hn hodd => passes_sub_one_of_odd (by omega) hodd,
    fun _ => not_passes_sub_one_of_even, fun n w hn hw h => hw (coprime_of_passes hn h), ?_, ?_,
    fun w _ _ => passes_561_iff w, length_filter_trialPasses_561⟩
  · intro w h1 h3
    rw [Passes]
    interval_cases w <;> decide
  · intro w h1 h14
    rw [Passes]
    interval_cases w <;> decide

end Sys2Proof.Machine
end

section
/-! PROOFS, PRIMETEST as a command (spec 44_primetest.md): its arguments (R130, R134), the verdict and the words it
consumes (R133), one-sided error (R135), and the wait for a random word (R138). -/

namespace Sys2Proof.Machine

open Sys2Proof

/-! ### The run of trials (spec R130, R133) -/

/-- No word is requested once K trials have passed. -/
theorem runTrials_of_le {n k t : Nat} (h : k ≤ t) (ws : List Nat) : runTrials n k t ws = .verdict true ws := by
  cases ws with
  | nil => exact if_pos h
  | cons r rest => exact if_pos h

/-- A word that is not accepted is skipped. -/
theorem runTrials_cons_of_rejected {n k t r : Nat} (ht : t < k) (hr : witnessOf n r = none) (rest : List Nat) :
    runTrials n k t (r :: rest) = runTrials n k t rest := by
  rw [runTrials, if_neg (by omega)]
  simp only [hr]

/-- A witness that passes brings the next trial. -/
theorem runTrials_cons_of_passes {n k t r w : Nat} (ht : t < k) (hr : witnessOf n r = some w) (hw : Passes n w)
    (rest : List Nat) : runTrials n k t (r :: rest) = runTrials n k (t + 1) rest := by
  rw [runTrials, if_neg (by omega)]
  simp only [hr, if_pos ((trialPasses_iff n w).2 hw)]

/-- A witness that fails ends the run: composite, there and then. -/
theorem runTrials_cons_of_not_passes {n k t r w : Nat} (ht : t < k) (hr : witnessOf n r = some w)
    (hw : ¬ Passes n w) (rest : List Nat) : runTrials n k t (r :: rest) = .verdict false rest := by
  rw [runTrials, if_neg (by omega)]
  simp only [hr, if_neg (mt (trialPasses_iff n w).1 hw)]

/-- A run on words whose accepted witnesses all pass: it is starved when they are too few, and else ends with the
verdict prime. -/
theorem runTrials_of_all_pass {n k : Nat} {ws : List Nat}
    (hws : ∀ v ∈ acceptedWitnesses n ws, Passes n v) (t : Nat) :
    (t + (acceptedWitnesses n ws).length < k ∧
      runTrials n k t ws = .starved (t + (acceptedWitnesses n ws).length)) ∨
    (k ≤ t + (acceptedWitnesses n ws).length ∧ ∃ rest, runTrials n k t ws = .verdict true rest) := by
  induction ws generalizing t with
  | nil =>
    by_cases hk : k ≤ t
    · exact .inr ⟨by omega, [], runTrials_of_le hk []⟩
    · exact .inl ⟨Nat.lt_of_not_le hk, runTrials_nil n k t (Nat.lt_of_not_le hk)⟩
  | cons r rest ih =>
    by_cases hk : k ≤ t
    · exact .inr ⟨by omega, _, runTrials_of_le hk _⟩
    · cases hr : witnessOf n r with
      | none =>
        have hskip : acceptedWitnesses n (r :: rest) = acceptedWitnesses n rest := List.filterMap_cons_none hr
        rw [hskip] at hws ⊢
        rw [runTrials_cons_of_rejected (by omega) hr]
        exact ih hws t
      | some w =>
        have htake : acceptedWitnesses n (r :: rest) = w :: acceptedWitnesses n rest := List.filterMap_cons_some hr
        rw [htake] at hws ⊢
        obtain ⟨hw, hrest⟩ := List.forall_mem_cons.1 hws
        rw [runTrials_cons_of_passes (by omega) hr hw, List.length_cons, Nat.add_comm _ 1, ← Nat.add_assoc]
        exact ih hrest (t + 1)

/-- Fewer than K accepted witnesses that all pass starve the run. -/
theorem runTrials_starved_of_all_pass {n k t : Nat} {ws : List Nat}
    (hws : ∀ v ∈ acceptedWitnesses n ws, Passes n v) (hlt : t + (acceptedWitnesses n ws).length < k) :
    runTrials n k t ws = .starved (t + (acceptedWitnesses n ws).length) := by
  rcases runTrials_of_all_pass hws t with ⟨_, hrun⟩ | ⟨hle, _⟩
  · exact hrun
  · omega

/-- Such words only bring the run to the next trial: what follows them is used as from there. -/
theorem runTrials_append_of_all_pass {n k t : Nat} {ws : List Nat}
    (hws : ∀ v ∈ acceptedWitnesses n ws, Passes n v) (hlt : t + (acceptedWitnesses n ws).length < k)
    (later : List Nat) :
    runTrials n k t (ws ++ later) = runTrials n k (t + (acceptedWitnesses n ws).length) later :=
  runTrials_append (runTrials_starved_of_all_pass hws hlt) later

/-! ### The arguments (spec R130, R134) -/

/-- A candidate below 2 is refused before any word is requested (spec R130). -/
theorem exec_primetest_of_n_lt_two {s : State} (hn : s.n < 2) : exec .primetest s = raise .invalidArgument s :=
  if_pos hn

/-- A PRIMETEST that starts afresh runs from trial 0. -/
theorem exec_primetest_of_waiting_none {s : State} (hn : 2 ≤ s.n) (hw : s.waiting = none) :
    exec .primetest s = .next (endTrials s (runTrials s.n s.k.toNat 0 s.words)) := by
  rw [exec_primetest hn, hw, Option.getD_none]

/-- Settles O38: the branch on N, and a run of no trials. -/
theorem primetestChecksItsArgumentsFirst : Obligations.PrimetestChecksItsArgumentsFirst := by
  unfold Obligations.PrimetestChecksItsArgumentsFirst
  refine ⟨rfl, fun s => ⟨fun hn => ?_, fun hn hk => ?_⟩⟩
  · rw [exec_primetest_of_n_lt_two hn, raise]
  · rw [exec_primetest hn, runTrials_of_le (by simp [hk]), endTrials, commit]

/-! ### The verdict (spec R133, R135) -/

/-- Settles O41: the words before `r` bring the run to the trial of `r`, and that trial decides. -/
theorem primetestVerdictAndConsumption : Obligations.PrimetestVerdictAndConsumption := by
  unfold Obligations.PrimetestVerdictAndConsumption
  intro s pre post r w hn hwaiting hwords hr hpre
  rw [exec_primetest_of_waiting_none hn hwaiting, hwords]
  constructor
  · intro hk hw
    rw [runTrials_append_of_all_pass hpre (by omega), runTrials_cons_of_passes (by omega) hr hw,
      runTrials_of_le (by omega), endTrials, commit]
  · intro hk hw
    rw [runTrials_append_of_all_pass hpre (by omega), runTrials_cons_of_not_passes (by omega) hr hw, endTrials, commit]

/-- An accepted witness of a prime passes. -/
theorem passes_of_mem_acceptedWitnesses {n : Nat} (hn : n.Prime) {ws : List Nat} {v : Nat}
    (hv : v ∈ acceptedWitnesses n ws) : Passes n v := by
  obtain ⟨r, _, hr⟩ := List.mem_filterMap.1 hv
  obtain ⟨_, h1, hle⟩ := (witnessOf_eq_some_iff n r v).1 hr
  exact passes_of_prime hn h1 hle

/-- Settles O44: all accepted witnesses of a prime pass, so the run is starved or ends with the verdict prime. -/
theorem primeIsNeverReportedComposite : Obligations.PrimeIsNeverReportedComposite := by
  unfold Obligations.PrimeIsNeverReportedComposite
  intro s t hprime hb h hend
  rw [exec_primetest hprime.two_le] at h
  cases h
  have hpass : ∀ v ∈ acceptedWitnesses s.n s.words, Passes s.n v := fun v => passes_of_mem_acceptedWitnesses hprime
  rcases runTrials_of_all_pass (k := s.k.toNat) hpass (s.waiting.getD 0) with ⟨_, hrun⟩ | ⟨_, rest, hrun⟩
  · rw [hrun] at hend
    exact absurd hb hend
  · rw [hrun]
    exact ⟨rfl, rfl⟩

/-! ### The wait for a random word (spec R138) -/

/-- While its request is unanswered the core's move changes nothing. -/
theorem coreMove_starved {s : State} {u : Nat} (h : Inv s) (hwaiting : s.waiting = some u) (hwords : s.words = []) :
    coreMove s = .next s := by
  obtain ⟨hb, hcmd, hn, hu, _⟩ := h.waitingLegal u hwaiting
  have hdecode : decode s.cmd = .command .primetest := by rw [hcmd, decode_encode]
  rw [coreMove_command hb hdecode, exec_primetest hn, hwaiting, hwords, Option.getD_some, runTrials_nil _ _ _ hu,
    endTrials, ← hwaiting, ← hwords]

/-- With nothing listed no number of steps changes anything. -/
theorem run_starved {s : State} {u : Nat} (h : Inv s) (hwaiting : s.waiting = some u) (hwords : s.words = [])
    (hsched : s.sched = []) (m : Nat) : Sys2Proof.core.run m s = .next s := by
  have hstep : step s = .next s := by
    rw [step_coreTurn (.inl ⟨hsched, rfl⟩), ← hsched]
    exact coreMove_starved h hwaiting hwords
  induction m with
  | zero => exact run_zero s
  | succ m ih => exact (run_succ m hstep).trans ih

/-- A step that is neither an answer nor a reset leaves an unanswered request as it is. -/
theorem step_starved {s t : State} (h : Inv s) (hwaiting : s.waiting ≠ none) (hwords : s.words = [])
    (hstep : step s = .next t) (hreset : ∀ rest, s.sched ≠ .reset :: rest)
    (hanswer : ∀ r rest, s.sched ≠ .answer r :: rest) :
    t.state = .busy ∧ t.waiting = s.waiting ∧ t.words = [] := by
  obtain ⟨u, hu⟩ := Option.ne_none_iff_exists'.1 hwaiting
  obtain ⟨hb, _⟩ := h.waitingLegal u hu
  rcases step_cases hstep with ⟨rest, _, hmove⟩ | ⟨off, size, rest, _, rfl⟩ | ⟨off, size, v, rest, _, rfl⟩ |
    ⟨r, rest, hs, _⟩ | ⟨rest, hs, _⟩ | ⟨rest, _, rfl⟩
  · have hinv : Inv { s with sched := rest } :=
      inv_of_keepsRegisters h (keepsRegisters_sched_resp s rest s.resp)
    rw [coreMove_starved hinv hu hwords] at hmove
    cases hmove
    exact ⟨hb, rfl, hwords⟩
  · obtain ⟨rp, hread⟩ := busRead_cases off size { s with sched := rest }
    rw [hread]
    exact ⟨hb, rfl, hwords⟩
  · rcases busWrite_cases off size v { s with sched := rest } with hw | ⟨_, hw⟩ | ⟨hn, _⟩
    · rw [hw]
      exact ⟨hb, rfl, hwords⟩
    · rw [hw]
      exact ⟨hb, rfl, hwords⟩
    · exact absurd hb hn
  · exact absurd hs (hanswer r rest)
  · exact absurd hs (hreset rest)
  · obtain ⟨rp, sc, hpoll⟩ := pollStatus_cases { s with sched := rest }
    rw [hpoll]
    exact ⟨hb, rfl, hwords⟩

/-- Settles O42: too few witnesses starve the run, and then `run_starved` and `step_starved`. -/
theorem starvedPrimetestStaysBusy : Obligations.StarvedPrimetestStaysBusy := by
  unfold Obligations.StarvedPrimetestStaysBusy
  refine ⟨fun s hn hwaiting hlt hpass => ?_, fun m _ _ h hwaiting hwords hsched => ?_, fun _ _ => step_starved⟩
  · rw [exec_primetest_of_waiting_none hn hwaiting, runTrials_starved_of_all_pass hpass (by omega), Nat.zero_add,
      endTrials]
  · exact run_starved h hwaiting hwords hsched m

end Sys2Proof.Machine
end

section
/-! PROOFS, exceptions (spec 60_exceptions.md): an illegal word (R152), what an error writes (R155), the accept after an
error (R157), and that no error stops the machine (R155, R156). -/

namespace Sys2Proof.Machine

open Sys2Proof

/-! ### No step stops the machine (spec R155, R156) -/

/-- Settles O17, by induction on the number of steps: each step has a next state (`step_next`). -/
theorem noRunEverStops : Obligations.NoRunEverStops := by
  unfold Obligations.NoRunEverStops SafeRun
  intro k
  induction k with
  | zero => exact fun s => ⟨s, run_zero s⟩
  | succ k ih =>
    intro s
    obtain ⟨s', hstep⟩ := step_next s
    rw [run_succ k hstep]
    exact ih s'

/-! ### What an error writes (spec R155) -/

/-- A running command, legal or not, that the core ends in ERROR has raised an error. -/
theorem coreMove_error {s t : State} (h : coreMove s = .next t) (hb : s.state = .busy) (ht : t.state = .error) :
    ∃ c, raise c s = .next t := by
  rcases coreMove_cases h with ⟨hn, _⟩ | ⟨_, i, _, hexec⟩ | ⟨_, _, rfl⟩
  · exact absurd hb hn
  · obtain ⟨c, _, hraise⟩ := exec_error hexec hb ht
    exact ⟨c, hraise⟩
  · exact ⟨.illegalCommand, rfl⟩

/-- Settles O48: the ERROR is a `raise` (`coreMove_error`), and after it the core rests (O8). -/
theorem errorWritesOnlyStatus : Obligations.ErrorWritesOnlyStatus := by
  unfold Obligations.ErrorWritesOnlyStatus
  intro s t rest hb hturn hstep ht
  rw [step_coreTurn hturn] at hstep
  obtain ⟨code, hraise⟩ := coreMove_error hstep hb ht
  have hrest : step { t with sched := [] } = .next { t with sched := [] } :=
    coreRestsWhenNotBusy { t with sched := [] } [] (by simp [ht]) (.inl ⟨rfl, rfl⟩)
  refine ⟨code, ?_, hrest⟩
  cases hraise
  rfl

/-! ### An illegal command word (spec R152) -/

/-- A word that is none of the five command words is rejected. -/
theorem decode_illegal {w : Word} (h : ∀ i, w ≠ encode i) : ∃ r, decode w = .illegal r := by
  cases hd : decode w with
  | command i => exact absurd (eq_encode_of_decode hd) (h i)
  | illegal r => exact ⟨r, rfl⟩

/-- In a BUSY state with a rejected word in `CMD` the core's move raises IllegalCommand. -/
theorem coreMove_illegal {s : State} {r : IllegalWord} (hb : s.state = .busy) (hd : decode s.cmd = .illegal r) :
    coreMove s = raise .illegalCommand s := by
  unfold coreMove fetch
  rw [if_pos hb, hd]

/-- Settles O47: the word is rejected (`decode_illegal`), and then `coreMove_illegal`. -/
theorem illegalWordRaisesIllegalCommand : Obligations.IllegalWordRaisesIllegalCommand := by
  unfold Obligations.IllegalWordRaisesIllegalCommand
  intro s rest hb hcmd hturn
  obtain ⟨r, hd⟩ := decode_illegal hcmd
  rw [step_coreTurn hturn]
  exact coreMove_illegal hb hd

/-! ### The accept after an error (spec R157) -/

/-- An accept overwrites STATE and ERRCODE, so outside BUSY their values do not matter to it (spec 10_state.md R31). -/
theorem step_accept_state_errcode {s : State} {w : Word} {rest : List Event} {st : SeqState} (e : Option ErrCode)
    (hst : st ≠ .busy) (hs : s.sched = .access (.write 0x0000 4 w) :: rest) :
    step { s with state := st, errcode := e } = .next { accept w { s with sched := rest } with resp := some .ok } :=
  step_accept (s := { s with state := st, errcode := e }) hst hs

/-- Settles O49: from ERROR and from DONE the step is the same accept (`step_accept_state_errcode`). -/
theorem errorDoesNotAffectTheNextCommand : Obligations.ErrorDoesNotAffectTheNextCommand := by
  unfold Obligations.ErrorDoesNotAffectTheNextCommand
  intro s code w rest hs
  rw [step_accept_state_errcode (some code) (by decide) hs, step_accept_state_errcode none (by decide) hs]

end Sys2Proof.Machine
end

section
/-! PROOFS, reset and hazards (spec 70_reset_and_hazards.md): the first command after reset (R183), what a reset
abandons (R180, R181), and completion (R190), with the `WAIT` on a starved PRIMETEST. -/

namespace Sys2Proof.Machine

open Sys2Proof

/-! ### The first command after reset (spec R183) -/

/-- Every command that reads `N` refuses the modulus 0. -/
theorem exec_of_n_eq_zero {i : Instr} {s : State} (hi : i ≠ .egcd) (hn : s.n = 0) :
    exec i s = raise .invalidArgument s := by
  cases i with
  | modmul => exact exec_modmul_of_n_eq_zero hn
  | modexp => exact exec_modexp_of_n_eq_zero hn
  | egcd => exact absurd rfl hi
  | modinv => exact exec_modinv_of_n_eq_zero hn
  | primetest => exact exec_primetest_of_n_lt_two (by omega)

/-- The triple of the operands (0, 0) (spec 42_egcd.md R111). -/
theorem egcd_zero_zero : egcd 0 0 = { x := 1, y := 0, g := 0 } := rfl

/-- Settles O53: the placed command runs next (O5) on operands that are all 0. -/
theorem firstCommandAfterReset : Obligations.FirstCommandAfterReset := by
  unfold Obligations.FirstCommandAfterReset
  intro limbs i
  rw [placedCommandRunsNext (State.resetAt limbs) i]
  by_cases hi : i = .egcd
  · subst hi
    refine ⟨_, exec_egcd _, fun hne => absurd rfl hne, fun _ => ?_⟩
    simp only [resetAt_a, resetAt_b, egcd_zero_zero]
    exact ⟨rfl, rfl, rfl, rfl, rfl, rfl⟩
  · exact ⟨_, exec_of_n_eq_zero hi rfl, fun _ => ⟨rfl, rfl⟩, fun heq => absurd heq hi⟩

/-! ### Reset (spec R180, R181) -/

/-- Reset zeroes the data registers. -/
theorem readReg_resetBlock (s : State) (r : DataReg) : readReg (resetBlock s) r = 0 := by cases r <;> rfl

/-- `STATUS` reads 0 after reset. -/
theorem statusWord_resetBlock (s : State) : statusWord (resetBlock s) = 0 :=
  BitVec.eq_of_toNat_eq (statusWord_toNat _)

/-- With no request outstanding reset keeps the source's words. -/
theorem wordsAfterReset_of_waiting_none {s : State} (h : s.waiting = none) : wordsAfterReset s = s.words := by
  simp [wordsAfterReset, h]

/-- The answer already given to an abandoned request is dropped. -/
theorem wordsAfterReset_of_waiting {s : State} (h : s.waiting ≠ none) : wordsAfterReset s = s.words.drop 1 :=
  if_pos (Option.isSome_iff_ne_none.2 h)

/-- Settles O52: the step is `resetBlock`, after which no request is outstanding for a later word to answer. -/
theorem resetAbandonsEverything : Obligations.ResetAbandonsEverything := by
  unfold Obligations.ResetAbandonsEverything
  intro s rest hs
  refine ⟨_, step_reset hs, readReg_resetBlock _, rfl, rfl, rfl, rfl, rfl, rfl, rfl, rfl, rfl, rfl, rfl,
    wordsAfterReset_of_waiting_none (s := { s with sched := rest }),
    wordsAfterReset_of_waiting (s := { s with sched := rest }), fun r later hrest => ?_⟩
  rw [step_answer hrest, answerRandom_discarded (.inl rfl)]

/-! ### Completion (spec R190) -/

/-- Settles O50: the core's move runs a command that ends (`exec_ends`), or raises IllegalCommand. -/
theorem deterministicCommandsComplete : Obligations.DeterministicCommandsComplete := by
  unfold Obligations.DeterministicCommandsComplete
  intro s rest hb hne hturn
  rw [step_coreTurn hturn]
  obtain ⟨t, hmove⟩ := coreMove_next { s with sched := rest }
  refine ⟨t, hmove, ?_⟩
  rcases coreMove_cases hmove with ⟨hn, _⟩ | ⟨_, i, hd, hexec⟩ | ⟨_, _, rfl⟩
  · exact absurd hb hn
  · exact exec_ends hexec fun hi => hne (hi ▸ hd)
  · exact .inr rfl

/-! ### The schedule -/

/-- No answer and no reset is listed. -/
def NoInput (sched : List Event) : Prop := ∀ e ∈ sched, e ≠ .reset ∧ ∀ r : Nat, e ≠ .answer r

/-- The core takes no event off the schedule and lists none. -/
theorem coreMove_sched {s t : State} (h : coreMove s = .next t) : t.sched = s.sched := by
  rcases coreMove_cases h with ⟨_, rfl⟩ | ⟨_, i, _, hexec⟩ | ⟨_, _, rfl⟩
  · rfl
  · obtain ⟨_, _, _, _, _, _, _, hsched, _⟩ := exec_frame hexec
    exact hsched
  · rfl

/-- Nor does a host access. -/
theorem busAccess_sched (acc : BusAccess) (s : State) : (busAccess acc s).sched = s.sched := by
  cases acc with
  | read off size =>
    obtain ⟨rp, hread⟩ := busRead_cases off size s
    rw [busAccess, hread]
  | write off size v =>
    rw [busAccess]
    rcases busWrite_cases off size v s with hw | ⟨_, hw⟩ | ⟨_, _, loc, _, hwritable, hw⟩
    · rw [hw]
    · rw [hw]
    · rw [hw]
      rcases writeLocation_cases hwritable s v with ⟨_, h⟩ | ⟨_, h⟩ | ⟨r, j, _, _, h⟩
      · simp only [h, accept_sched]
      · simp only [h]
      · simp only [h, writeReg_sched]

/-- Nor does a random word. -/
theorem answerRandom_sched (r : Nat) (s : State) : (answerRandom r s).sched = s.sched := by
  rcases answerRandom_cases r s with h | ⟨_, _, h⟩
  · rw [h]
  · rw [h]

/-- Every event but a poll is taken off the schedule and leaves the rest of it as it is. -/
theorem step_sched {s t : State} {e : Event} {rest : List Event} (hs : s.sched = e :: rest) (he : e ≠ .wait)
    (h : step s = .next t) : t.sched = rest := by
  cases e with
  | core =>
    rw [step_coreTurn (.inr hs)] at h
    exact coreMove_sched h
  | access acc =>
    rw [step_access hs] at h
    cases h
    exact busAccess_sched acc _
  | answer r =>
    rw [step_answer hs] at h
    cases h
    exact answerRandom_sched r _
  | reset =>
    rw [step_reset hs] at h
    cases h
    rfl
  | wait => exact absurd rfl he

/-! ### A poll while the request is unanswered (spec R190, 30_encoding.md R78) -/

/-- The first input of a schedule, with what is left when it is taken out. -/
theorem firstInput_append_cons {pre : List Event} (hpre : NoInput pre) {e : Event} {rest : List Event}
    (he : firstInput (e :: rest) = some (e, rest)) : firstInput (pre ++ e :: rest) = some (e, pre ++ rest) := by
  rw [firstInput_append hpre, he, Option.map_some]

/-- With no input listed there is none to take. -/
theorem firstInput_eq_none {sched : List Event} (h : NoInput sched) : firstInput sched = none := by
  have happend := firstInput_append h []
  rwa [List.append_nil] at happend

/-- What comes after a poll while the request is unanswered and an input is listed. -/
theorem afterBusyPoll_input {s : State} {e : Event} {left : List Event} (hpending : requestPending s = true)
    (hfirst : firstInput s.sched = some (e, left)) : afterBusyPoll s = e :: .wait :: left := by
  unfold afterBusyPoll
  rw [if_pos hpending, hfirst]

/-- What comes after a poll when no input is listed, request or not. -/
theorem afterBusyPoll_noInput {s : State} (h : NoInput s.sched) : afterBusyPoll s = .core :: .wait :: s.sched := by
  unfold afterBusyPoll
  rw [firstInput_eq_none h, ite_self]

/-- A poll while the request is unanswered lets the first input listed in. -/
theorem step_wait_input {s : State} {e : Event} {sched left : List Event} (hb : s.state = .busy)
    (hwaiting : s.waiting ≠ none) (hwords : s.words = []) (hs : s.sched = .wait :: sched)
    (hfirst : firstInput sched = some (e, left)) :
    step s = .next { s with sched := e :: .wait :: left, resp := some (.data (statusWord s)) } := by
  have hpending : requestPending { s with sched := sched } = true := (requestPending_iff _).2 ⟨hwaiting, hwords⟩
  rw [step_wait hs, pollStatus_busy (s := { s with sched := sched }) hb, afterBusyPoll_input hpending hfirst]
  rfl

/-- With no input listed it lets the core move. -/
theorem step_wait_noInput {s : State} {rest : List Event} (hb : s.state = .busy) (hin : NoInput rest)
    (hs : s.sched = .wait :: rest) :
    step s = .next { s with sched := .core :: .wait :: rest, resp := some (.data (statusWord s)) } := by
  rw [step_wait hs, pollStatus_busy (s := { s with sched := rest }) hb, afterBusyPoll_noInput hin]
  rfl

/-- A poll straight after reset reads `STATUS` 0 and is the last. -/
theorem step_wait_resetBlock {s : State} {rest : List Event} (hs : s.sched = .wait :: rest) :
    step (resetBlock s) = .next { resetBlock s with sched := rest, resp := some (.data 0) } := by
  have hpoll := step_wait_done (s := resetBlock s) (by simp) hs
  rwa [statusWord_resetBlock] at hpoll

/-- A reset that is the first input listed ends the `WAIT`: it is let in, and the next poll reads `STATUS` 0. -/
theorem run_wait_reset {s : State} {pre rest : List Event} (hb : s.state = .busy) (hwaiting : s.waiting ≠ none)
    (hwords : s.words = []) (hpre : NoInput pre) (hs : s.sched = .wait :: (pre ++ .reset :: rest)) :
    ∃ t : State, Sys2Proof.core.run 3 s = .next t ∧ t.state = .idle ∧ t.waiting = none ∧
      t.resp = some (.data 0) ∧ t.sched = pre ++ rest := by
  have hpoll := step_wait_input hb hwaiting hwords hs (firstInput_append_cons hpre rfl)
  exact ⟨_, (run_succ 2 hpoll).trans ((run_succ 1 (step_reset rfl)).trans (run_succ 0 (step_wait_resetBlock rfl))),
    rfl, rfl, rfl, rfl⟩

/-- An answer that is the first input listed is let in and answers the request. -/
theorem run_wait_answer {s : State} {pre rest : List Event} {r : Nat} (hb : s.state = .busy)
    (hwaiting : s.waiting ≠ none) (hwords : s.words = []) (hpre : NoInput pre) (hr : r < 2 ^ (32 * s.limbs))
    (hs : s.sched = .wait :: (pre ++ .answer r :: rest)) :
    Sys2Proof.core.run 2 s = .next { s with
      words := [r], sched := .wait :: (pre ++ rest), resp := some (.data (statusWord s)) } := by
  have hpoll := step_wait_input hb hwaiting hwords hs (firstInput_append_cons hpre rfl)
  obtain ⟨htaken, _⟩ := randomAnswerGoesToTheOutstandingRequest
    { s with sched := .answer r :: .wait :: (pre ++ rest), resp := some (.data (statusWord s)) } r _ rfl hr
  exact (run_succ 1 hpoll).trans (run_succ 0 (htaken hwaiting hwords))

/-! ### The `WAIT` that never returns (spec R190, 44_primetest.md R138) -/

/-- A starved PRIMETEST in a legal state, with a `WAIT` and no input listed. -/
structure StarvedPolling (s : State) : Prop where
  inv : Inv s
  waiting : s.waiting ≠ none
  words : s.words = []
  noInput : NoInput s.sched
  polls : .wait ∈ s.sched

/-- Only a PRIMETEST that is BUSY has a request outstanding (spec 20_memory.md R66). -/
theorem inv_busy_of_waiting {s : State} (h : Inv s) (hwaiting : s.waiting ≠ none) : s.state = .busy := by
  obtain ⟨u, hu⟩ := Option.ne_none_iff_exists'.1 hwaiting
  obtain ⟨hb, _⟩ := h.waitingLegal u hu
  exact hb

/-- A step lists no input, and it takes no `WAIT` off the schedule that it does not list again. -/
theorem starvedPolling_step_sched {s t : State} (h : StarvedPolling s) (hstep : step s = .next t) :
    NoInput t.sched ∧ .wait ∈ t.sched := by
  obtain ⟨hinv, hwaiting, _, hin, hpolls⟩ := h
  rcases hs : s.sched with _ | ⟨e, rest⟩
  · simp [hs] at hpolls
  · rw [hs] at hin hpolls
    obtain ⟨_, hrest⟩ := List.forall_mem_cons.1 hin
    by_cases he : e = .wait
    · subst he
      rw [step_wait_noInput (inv_busy_of_waiting hinv hwaiting) hrest hs] at hstep
      cases hstep
      exact ⟨List.forall_mem_cons.2 ⟨⟨by simp, by simp⟩, hin⟩, by simp⟩
    · rw [step_sched hs he hstep]
      exact ⟨hrest, List.mem_of_ne_of_mem (Ne.symm he) hpolls⟩

/-- Every step keeps the request unanswered and the `WAIT` unfinished. -/
theorem starvedPolling_step {s t : State} (h : StarvedPolling s) (hstep : step s = .next t) :
    StarvedPolling t ∧ t.waiting = s.waiting := by
  obtain ⟨hin, hpolls⟩ := starvedPolling_step_sched h hstep
  have hreset : ∀ rest, s.sched ≠ .reset :: rest := fun rest hs =>
    (h.noInput .reset (hs ▸ List.mem_cons_self)).1 rfl
  have hanswer : ∀ r rest, s.sched ≠ .answer r :: rest := fun r rest hs =>
    (h.noInput (.answer r) (hs ▸ List.mem_cons_self)).2 r rfl
  obtain ⟨_, hwaiting, hwords⟩ := step_starved h.inv h.waiting h.words hstep hreset hanswer
  exact ⟨⟨everyStepKeepsTheInvariant s t h.inv hstep, hwaiting ▸ h.waiting, hwords, hin, hpolls⟩, hwaiting⟩

/-- So does a run of any length. -/
theorem starvedPolling_run (m : Nat) {s : State} (h : StarvedPolling s) :
    ∃ t : State, Sys2Proof.core.run m s = .next t ∧ StarvedPolling t ∧ t.waiting = s.waiting := by
  induction m generalizing s with
  | zero => exact ⟨s, run_zero s, h, rfl⟩
  | succ m ih =>
    obtain ⟨s', hstep⟩ := step_next s
    obtain ⟨hs', hwaiting⟩ := starvedPolling_step h hstep
    obtain ⟨t, hrun, ht, hwaiting'⟩ := ih hs'
    exact ⟨t, (run_succ m hstep).trans hrun, ht, hwaiting'.trans hwaiting⟩

/-- Settles O54: `run_wait_reset` and `run_wait_answer` for the first input listed, and the invariant `StarvedPolling`
where none is. -/
theorem starvedWaitEndsOnlyByInput : Obligations.StarvedWaitEndsOnlyByInput := by
  unfold Obligations.StarvedWaitEndsOnlyByInput
  intro s pre rest hb hwaiting hwords hpre
  refine ⟨run_wait_reset hb hwaiting hwords hpre, fun r => run_wait_answer hb hwaiting hwords hpre,
    fun hinv hs m => ?_⟩
  have hin : NoInput s.sched := hs ▸ List.forall_mem_cons.2 ⟨⟨by simp, by simp⟩, hpre⟩
  obtain ⟨t, hrun, ht, hsame⟩ := starvedPolling_run m ⟨hinv, hwaiting, hwords, hin, hs ▸ List.mem_cons_self⟩
  exact ⟨t, hrun, inv_busy_of_waiting ht.inv ht.waiting, hsame, ht.polls⟩

end Sys2Proof.Machine
end
